-- ==== Sys2Proof/Word.lean ====
section
/-!
DEFINITION. The words of the machine (R6, R7, R81 of spec/): unsigned bit vectors of the four widths the
spec names.
-/

namespace Sys2Proof

/-- A 4-bit field of an instruction word: a register number, a row count or a sub-key (R6, R81). -/
abbrev Nibble := BitVec 4

/-- A byte: a general register, a timer, a byte of memory, an immediate (R6, R21, R27, R30). -/
abbrev Byte := BitVec 8

/-- The 12-bit address field `addr` of an instruction word (R81). -/
abbrev Addr := BitVec 12

/-- A 16-bit word: an instruction word, PC, I, a stack entry (R23, R24, R26, R80). -/
abbrev Word := BitVec 16

end Sys2Proof
end

