-- ==== Sys2Proof/Config.lean ====
section
/-!
DEFINITION. What the implementation fixes (the parameters of R5 of spec/00_scope.md) and the free values of
the model. The fixed parameters of R5 are constants; the three that R5 marks *argument* are the fields of `Params`, which
the state carries (log entry 21); the values this hardware gives them stand in Machine/Defaults.lean.
-/

namespace Sys2Proof

/-- `MEM_SIZE`: bytes of memory (R5). -/
abbrev Config.memSize : Nat := 4096

/-- `FONT_BASE`: first address of the font table (R5). -/
abbrev Config.fontBase : Nat := 0x050

/-- `FONT_SIZE`: bytes of the font table (R5). -/
abbrev Config.fontSize : Nat := 80

/-- `PROG_BASE`: program load origin and reset value of PC (R5). -/
abbrev Config.progBase : Nat := 0x200

/-- `FB_W`: columns of the framebuffer (R5, R210). -/
abbrev Config.fbWidth : Nat := 64

/-- `FB_H`: rows of the framebuffer (R5, R210). -/
abbrev Config.fbHeight : Nat := 32

/-- Cells of the framebuffer, `FB_W * FB_H` (R5, R32). -/
abbrev Config.fbCells : Nat := 2048

/-- `NUM_KEYS`: key-state latches (R5, R34). -/
abbrev Config.numKeys : Nat := 16

/-- `TICK_PERIOD`: 1/60 s in units of 1/60000 s (R5, R35, D2; log entry 3). -/
abbrev Config.tickPeriod : Nat := 1000

/-- The parameters of R5 marked *argument*: what an implementation chooses when it is built. -/
structure Params where
  /-- `FONT`: the bytes of the font table (R5, R31, D19). -/
  font : Vector Byte Config.fontSize
  /-- `STACK_CAPACITY`: entries of the call stack, at least 1 (R5, R26, D5). -/
  stackCapacity : Nat
  /-- `SHIFT_USES_VY`: the shift quirk (R5, D26). -/
  shiftUsesVY : Bool
  deriving DecidableEq, Repr

/-- The parameter values R5 calls legal: any stack capacity of at least 1, any font bytes, either shift convention. -/
abbrev Params.Legal (p : Params) : Prop := 1 ≤ p.stackCapacity

/-- FREE VALUE: the `now` the driver gives to Step number `k` (R113). No body: nothing is known of it, not even
that it does not decrease (log entries 2 and 12). -/
opaque Config.nextNow : Nat → Nat

/-- FREE VALUE: the byte `rand8` the driver gives to Step number `k` (R36, R113, U6). No body: nothing is
known of it (log entry 2). -/
opaque Config.nextRand8 : Nat → Byte

end Sys2Proof
end

