-- ==== Sys2Proof/Syntax.lean ====
section
/-!
DEFINITION. The instructions: one constructor per row of spec/opcode_table.json (R92), with the fields the table
gives the row, the ones the instruction ignores among them, so that no bit of a word is lost (log entry 16).
-/

namespace Sys2Proof

/-- The 34 instructions of R92, in the order of the table. -/
inductive Instr where
  /-- 00E0, R211; `x` and `y` are ignored (R85). -/
  | cls (x y : Nibble)
  /-- 00EE, R141; `x` and `y` are ignored (R85). -/
  | ret (x y : Nibble)
  /-- 1NNN, R142. -/
  | jp (addr : Addr)
  /-- 2NNN, R143. -/
  | call (addr : Addr)
  /-- 3XNN, R144. -/
  | seImm (x : Nibble) (imm : Byte)
  /-- 4XNN, R145. -/
  | sneImm (x : Nibble) (imm : Byte)
  /-- 5XY0, R146; `n` is ignored (R86). -/
  | seReg (x y n : Nibble)
  /-- 6XNN, R161. -/
  | ldImm (x : Nibble) (imm : Byte)
  /-- 7XNN, R162. -/
  | addImm (x : Nibble) (imm : Byte)
  /-- 8XY0, R163. -/
  | ldReg (x y : Nibble)
  /-- 8XY1, R164. -/
  | or (x y : Nibble)
  /-- 8XY2, R165. -/
  | and (x y : Nibble)
  /-- 8XY3, R166. -/
  | xor (x y : Nibble)
  /-- 8XY4, R167. -/
  | addReg (x y : Nibble)
  /-- 8XY5, R168. -/
  | sub (x y : Nibble)
  /-- 8XY6, R169; `y` is not read while SHIFT_USES_VY is false. -/
  | shr (x y : Nibble)
  /-- 8XY7, R170. -/
  | subn (x y : Nibble)
  /-- 8XYE, R171; `y` is not read while SHIFT_USES_VY is false. -/
  | shl (x y : Nibble)
  /-- 9XY0, R147; `n` is ignored (R86). -/
  | sneReg (x y n : Nibble)
  /-- ANNN, R191. -/
  | ldI (addr : Addr)
  /-- BNNN, R148. -/
  | jpV0 (addr : Addr)
  /-- CXNN, R172. -/
  | rnd (x : Nibble) (imm : Byte)
  /-- DXYN, R212. -/
  | drw (x y n : Nibble)
  /-- EX9E, R231. -/
  | skp (x : Nibble)
  /-- EXA1, R232. -/
  | sknp (x : Nibble)
  /-- FX07, R233. -/
  | ldFromDT (x : Nibble)
  /-- FX0A, R234. -/
  | ldKey (x : Nibble)
  /-- FX15, R235. -/
  | ldToDT (x : Nibble)
  /-- FX18, R236. -/
  | ldToST (x : Nibble)
  /-- FX1E, R192. -/
  | addI (x : Nibble)
  /-- FX29, R193. -/
  | ldFont (x : Nibble)
  /-- FX33, R194. -/
  | ldBcd (x : Nibble)
  /-- FX55, R195. -/
  | store (x : Nibble)
  /-- FX65, R196. -/
  | load (x : Nibble)
  deriving DecidableEq, Repr

end Sys2Proof
end

