-- ==== Sys2Proof/WellFormed.lean ====
section
/-!
DEFINITION. Well-formed instructions: those whose ignored fields hold the value of the canonical encoding (R91),
the ones an assembler emits (R93). Every field's range is in its type. This is a check on what is WRITTEN: an
ill-formed instruction is an alias, which the machine runs exactly as its canonical form (R91; log entry 16).
-/

namespace Sys2Proof

/-- The canonical instructions of R91: X = 0 and Y = 0xE in 00E0 and 00EE, N = 0 in 5XY0 and 9XY0; every other
instruction has no ignored field, or (8XY6, 8XYE) keeps the register written. -/
def Instr.wellFormed (i : Instr) : Bool :=
  match i with
  | .cls x y => x == 0x0#4 && y == 0xE#4
  | .ret x y => x == 0x0#4 && y == 0xE#4
  | .seReg _ _ n => n == 0x0#4
  | .sneReg _ _ n => n == 0x0#4
  | .jp _ => true
  | .call _ => true
  | .seImm _ _ => true
  | .sneImm _ _ => true
  | .ldImm _ _ => true
  | .addImm _ _ => true
  | .ldReg _ _ => true
  | .or _ _ => true
  | .and _ _ => true
  | .xor _ _ => true
  | .addReg _ _ => true
  | .sub _ _ => true
  | .shr _ _ => true
  | .subn _ _ => true
  | .shl _ _ => true
  | .ldI _ => true
  | .jpV0 _ => true
  | .rnd _ _ => true
  | .drw _ _ _ => true
  | .skp _ => true
  | .sknp _ => true
  | .ldFromDT _ => true
  | .ldKey _ => true
  | .ldToDT _ => true
  | .ldToST _ => true
  | .addI _ => true
  | .ldFont _ => true
  | .ldBcd _ => true
  | .store _ => true
  | .load _ => true

/-- The canonical form of an instruction (R91): its ignored fields set to the canonical value. -/
def Instr.canonical (i : Instr) : Instr :=
  match i with
  | .cls _ _ => .cls 0x0 0xE
  | .ret _ _ => .ret 0x0 0xE
  | .seReg x y _ => .seReg x y 0x0
  | .sneReg x y _ => .sneReg x y 0x0
  | .jp a => .jp a
  | .call a => .call a
  | .seImm x k => .seImm x k
  | .sneImm x k => .sneImm x k
  | .ldImm x k => .ldImm x k
  | .addImm x k => .addImm x k
  | .ldReg x y => .ldReg x y
  | .or x y => .or x y
  | .and x y => .and x y
  | .xor x y => .xor x y
  | .addReg x y => .addReg x y
  | .sub x y => .sub x y
  | .shr x y => .shr x y
  | .subn x y => .subn x y
  | .shl x y => .shl x y
  | .ldI a => .ldI a
  | .jpV0 a => .jpV0 a
  | .rnd x k => .rnd x k
  | .drw x y n => .drw x y n
  | .skp x => .skp x
  | .sknp x => .sknp x
  | .ldFromDT x => .ldFromDT x
  | .ldKey x => .ldKey x
  | .ldToDT x => .ldToDT x
  | .ldToST x => .ldToST x
  | .addI x => .addI x
  | .ldFont x => .ldFont x
  | .ldBcd x => .ldBcd x
  | .store x => .store x
  | .load x => .load x

end Sys2Proof
end

