-- ==== Sys2Proof/Decode.lean ====
section
/-!
DEFINITION. The decoder (R80 to R91), total on any bytes and rejecting by name, and the encoder, written from the
opcode map (R92).
-/

namespace Sys2Proof

/-! ### The fields of a word (R81) -/

/-- Bits 15:12, the primary dispatch key. -/
def fieldGroup (w : Word) : Nibble := w.extractLsb' 12 4
/-- Bits 11:8. -/
def fieldX (w : Word) : Nibble := w.extractLsb' 8 4
/-- Bits 7:4. -/
def fieldY (w : Word) : Nibble := w.extractLsb' 4 4
/-- Bits 3:0. -/
def fieldN (w : Word) : Nibble := w.extractLsb' 0 4
/-- Bits 7:0, `Y ++ N`. -/
def fieldImm (w : Word) : Byte := w.extractLsb' 0 8
/-- Bits 11:0, `X ++ Y ++ N`. -/
def fieldAddr (w : Word) : Addr := w.extractLsb' 0 12

/-! ### Decoding (R84) -/

/-- Why bytes are no instruction. The four `undefined` reasons are the undefined words of R90, by group; the
machine runs them as no-ops. `truncated`: fewer than two bytes (R80). -/
inductive DecodeError where
  | undefinedGroup0 (n : Nibble)
  | undefinedGroup8 (n : Nibble)
  | undefinedGroupE (imm : Byte)
  | undefinedGroupF (imm : Byte)
  | truncated
  deriving DecidableEq, Repr

/-- Group 0x0, decoded on N alone (R85). -/
def decodeGroup0 (w : Word) : Except DecodeError Instr :=
  match fieldN w with
  | 0x0#4 => .ok (.cls (fieldX w) (fieldY w))
  | 0xE#4 => .ok (.ret (fieldX w) (fieldY w))
  | n => .error (.undefinedGroup0 n)

/-- Group 0x8, decoded on N (R87). -/
def decodeGroup8 (w : Word) : Except DecodeError Instr :=
  match fieldN w with
  | 0x0#4 => .ok (.ldReg (fieldX w) (fieldY w))
  | 0x1#4 => .ok (.or (fieldX w) (fieldY w))
  | 0x2#4 => .ok (.and (fieldX w) (fieldY w))
  | 0x3#4 => .ok (.xor (fieldX w) (fieldY w))
  | 0x4#4 => .ok (.addReg (fieldX w) (fieldY w))
  | 0x5#4 => .ok (.sub (fieldX w) (fieldY w))
  | 0x6#4 => .ok (.shr (fieldX w) (fieldY w))
  | 0x7#4 => .ok (.subn (fieldX w) (fieldY w))
  | 0xE#4 => .ok (.shl (fieldX w) (fieldY w))
  | n => .error (.undefinedGroup8 n)

/-- Group 0xE, decoded on the whole low byte (R88). -/
def decodeGroupE (w : Word) : Except DecodeError Instr :=
  match fieldImm w with
  | 0x9E#8 => .ok (.skp (fieldX w))
  | 0xA1#8 => .ok (.sknp (fieldX w))
  | k => .error (.undefinedGroupE k)

/-- Group 0xF, decoded on the whole low byte (R89). -/
def decodeGroupF (w : Word) : Except DecodeError Instr :=
  match fieldImm w with
  | 0x07#8 => .ok (.ldFromDT (fieldX w))
  | 0x0A#8 => .ok (.ldKey (fieldX w))
  | 0x15#8 => .ok (.ldToDT (fieldX w))
  | 0x18#8 => .ok (.ldToST (fieldX w))
  | 0x1E#8 => .ok (.addI (fieldX w))
  | 0x29#8 => .ok (.ldFont (fieldX w))
  | 0x33#8 => .ok (.ldBcd (fieldX w))
  | 0x55#8 => .ok (.store (fieldX w))
  | 0x65#8 => .ok (.load (fieldX w))
  | k => .error (.undefinedGroupF k)

/-- The decode algorithm of R84: on `group`, and for groups 0x0, 0x8, 0xE, 0xF on a secondary field. The last arm
is group 0xF, the one value the arms above leave. -/
def decodeWord (w : Word) : Except DecodeError Instr :=
  match fieldGroup w with
  | 0x0#4 => decodeGroup0 w
  | 0x1#4 => .ok (.jp (fieldAddr w))
  | 0x2#4 => .ok (.call (fieldAddr w))
  | 0x3#4 => .ok (.seImm (fieldX w) (fieldImm w))
  | 0x4#4 => .ok (.sneImm (fieldX w) (fieldImm w))
  | 0x5#4 => .ok (.seReg (fieldX w) (fieldY w) (fieldN w))
  | 0x6#4 => .ok (.ldImm (fieldX w) (fieldImm w))
  | 0x7#4 => .ok (.addImm (fieldX w) (fieldImm w))
  | 0x8#4 => decodeGroup8 w
  | 0x9#4 => .ok (.sneReg (fieldX w) (fieldY w) (fieldN w))
  | 0xA#4 => .ok (.ldI (fieldAddr w))
  | 0xB#4 => .ok (.jpV0 (fieldAddr w))
  | 0xC#4 => .ok (.rnd (fieldX w) (fieldImm w))
  | 0xD#4 => .ok (.drw (fieldX w) (fieldY w) (fieldN w))
  | 0xE#4 => decodeGroupE w
  | _ => decodeGroupF w

/-- Two bytes as a word, the first one the most significant (R52, R80). -/
def joinBytes (hi lo : Byte) : Word := hi ++ lo

/-- The two bytes of a word in the order memory holds them, most significant first (R80). -/
def splitBytes (w : Word) : List Byte := [w.extractLsb' 8 8, w.extractLsb' 0 8]

/-- Decoding of a byte sequence: the instruction of its first two bytes and the bytes after it (R80). -/
def decode (bytes : List Byte) : Except DecodeError (Instr × List Byte) :=
  match bytes with
  | hi :: lo :: rest => (decodeWord (joinBytes hi lo)).map (·, rest)
  | [_] => .error .truncated
  | [] => .error .truncated

/-! ### Encoding (R82, R92) -/

/-- Formats Z, C and D: four nibbles. -/
def wordOfNibbles (group x y n : Nibble) : Word := group ++ x ++ y ++ n

/-- Format A: a group and a 12-bit address. -/
def wordOfAddr (group : Nibble) (addr : Addr) : Word := group ++ addr

/-- Formats B and E: a group, a register number and a byte. -/
def wordOfImm (group x : Nibble) (imm : Byte) : Word := group ++ x ++ imm

/-- The word of an instruction, from the opcode map (R92). -/
def encode (i : Instr) : Word :=
  match i with
  | .cls x y => wordOfNibbles 0x0 x y 0x0
  | .ret x y => wordOfNibbles 0x0 x y 0xE
  | .jp addr => wordOfAddr 0x1 addr
  | .call addr => wordOfAddr 0x2 addr
  | .seImm x imm => wordOfImm 0x3 x imm
  | .sneImm x imm => wordOfImm 0x4 x imm
  | .seReg x y n => wordOfNibbles 0x5 x y n
  | .ldImm x imm => wordOfImm 0x6 x imm
  | .addImm x imm => wordOfImm 0x7 x imm
  | .ldReg x y => wordOfNibbles 0x8 x y 0x0
  | .or x y => wordOfNibbles 0x8 x y 0x1
  | .and x y => wordOfNibbles 0x8 x y 0x2
  | .xor x y => wordOfNibbles 0x8 x y 0x3
  | .addReg x y => wordOfNibbles 0x8 x y 0x4
  | .sub x y => wordOfNibbles 0x8 x y 0x5
  | .shr x y => wordOfNibbles 0x8 x y 0x6
  | .subn x y => wordOfNibbles 0x8 x y 0x7
  | .shl x y => wordOfNibbles 0x8 x y 0xE
  | .sneReg x y n => wordOfNibbles 0x9 x y n
  | .ldI addr => wordOfAddr 0xA addr
  | .jpV0 addr => wordOfAddr 0xB addr
  | .rnd x imm => wordOfImm 0xC x imm
  | .drw x y n => wordOfNibbles 0xD x y n
  | .skp x => wordOfImm 0xE x 0x9E
  | .sknp x => wordOfImm 0xE x 0xA1
  | .ldFromDT x => wordOfImm 0xF x 0x07
  | .ldKey x => wordOfImm 0xF x 0x0A
  | .ldToDT x => wordOfImm 0xF x 0x15
  | .ldToST x => wordOfImm 0xF x 0x18
  | .addI x => wordOfImm 0xF x 0x1E
  | .ldFont x => wordOfImm 0xF x 0x29
  | .ldBcd x => wordOfImm 0xF x 0x33
  | .store x => wordOfImm 0xF x 0x55
  | .load x => wordOfImm 0xF x 0x65

/-- The bytes of an instruction as a program holds them (R80). -/
def encodeBytes (i : Instr) : List Byte := splitBytes (encode i)

/-! ### The opcode table's numbering -/

/-- The bytes of the instruction whose bits are `w` as spec/opcode_table.json numbers them: its one word's bit 0 is
bit 0 of `w`, every bit from `nbits` up is 0; the word lies in memory high byte first (R80). -/
def tableBytes (nbits w : Nat) : List Byte := splitBytes (BitVec.ofNat 16 (w % 2 ^ nbits))

/-- The instruction the decoder reads from the word `w` of the opcode table; `none` for an undefined word (R90). -/
def decodeTableWord (nbits w : Nat) : Option Instr :=
  match decode (tableBytes nbits w) with
  | .ok (i, _) => some i
  | .error _ => none

end Sys2Proof
end

