-- ==== Sys2Proof/Machine/Defaults.lean ====
section
/-!
DEFINITION. The values this hardware gives the three parameters that R5 marks *argument*.
-/

namespace Sys2Proof

/-- The default of `FONT`: 80 bytes, five for each hexadecimal digit, top row first (R31). PRESUMED: the source gives no
bytes; these are the default the spec gives from general knowledge (D19, G1; log entry 6). -/
def Config.font : List Byte :=
  [0xF0, 0x90, 0x90, 0x90, 0xF0,  0x20, 0x60, 0x20, 0x20, 0x70,
   0xF0, 0x10, 0xF0, 0x80, 0xF0,  0xF0, 0x10, 0xF0, 0x10, 0xF0] ++
  [0x90, 0x90, 0xF0, 0x10, 0x10,  0xF0, 0x80, 0xF0, 0x10, 0xF0,
   0xF0, 0x80, 0xF0, 0x90, 0xF0,  0xF0, 0x10, 0x20, 0x40, 0x40] ++
  [0xF0, 0x90, 0xF0, 0x90, 0xF0,  0xF0, 0x90, 0xF0, 0x10, 0xF0,
   0xF0, 0x90, 0xF0, 0x90, 0x90,  0xE0, 0x90, 0xE0, 0x90, 0xE0] ++
  [0xF0, 0x80, 0x80, 0x80, 0xF0,  0xE0, 0x90, 0x90, 0x90, 0xE0,
   0xF0, 0x80, 0xF0, 0x80, 0xF0,  0xF0, 0x80, 0xF0, 0x80, 0x80]

/-- The default of `STACK_CAPACITY`: "this hardware takes 12" (R5; log entry 8). -/
def Config.stackCapacity : Nat := 12

/-- The default of `SHIFT_USES_VY`: false on this hardware (R5, D26; log entry 9). -/
def Config.shiftUsesVY : Bool := false

/-- The parameters of this hardware (R5). -/
def Config.params : Params where
  font := ⟨Config.font.toArray, rfl⟩
  stackCapacity := Config.stackCapacity
  shiftUsesVY := Config.shiftUsesVY

end Sys2Proof
end

