-- ==== Sys2Proof/Machine/State.lean ====
section
/-!
DEFINITION. The state of the machine: everything R20 of spec/10_state.md lists, as plain data, and beside it the
model's own fields (the output and the inputs of the interface's operations). The reasons an operation can stop.
The state after reset (R38, R290).
-/

namespace Sys2Proof.Machine

/-- The four error conditions of the engine (R250). They are results of an operation, not stops of the machine
(R258 to R260). -/
inductive Err where
  /-- Load: program too long, or its source unreadable (R255). -/
  | loadError
  /-- 2NNN with a full stack (R252). -/
  | stackOverflow
  /-- 00EE with an empty stack (R253). -/
  | stackUnderflow
  /-- Fetch, DXYN, FX33, FX55 or FX65 would reach an address above 4095 (R254). -/
  | memoryBounds
  deriving DecidableEq, Repr

/-- The result of a Load or a Step: `OK` or `Err(E)` (R11, R119). -/
inductive Result where
  | ok
  | err (e : Err)
  deriving DecidableEq, Repr

/-- The state of the engine (R20), and after it the model's own fields. -/
structure State where
  /-- V0 to VF (R21); VF is the flag (R22). -/
  v : Vector Byte 16
  /-- The index register (R23). -/
  i : Word
  /-- The program counter (R24). -/
  pc : Word
  /-- The stack pointer: how many return addresses are on the stack, 0 to STACK_CAPACITY (R25; `Inv.spMax`). -/
  sp : Nat
  /-- The call stack: its STACK_CAPACITY entries, entry 0 first; entry `k` is live when `k < sp` (R26;
  `Inv.stackLen`). -/
  stack : List Word
  /-- The delay timer (R27). -/
  dt : Byte
  /-- The sound timer (R28). -/
  st : Byte
  /-- Memory (R30): the bytes that differ from the reset contents, by rising address (log entry 15). -/
  mem : List Host.Cell
  /-- The framebuffer, 2048 cells of one bit, row-major (R32): bit `x` of row `y` is cell `x + 64 * y`, pixel
  `(x, y)` (log entry 18). -/
  fb : Vector (BitVec Config.fbWidth) Config.fbHeight
  /-- The "changed since last read" flag (R33). -/
  fbChanged : Bool
  /-- The key latches, true = pressed (R34). -/
  key : Vector Bool Config.numKeys
  /-- The tick reference (R35), a time in units of 1/60000 s (D2; log entry 3). -/
  tickRef : Nat
  /-- MODEL'S OWN, the configuration: the parameters this engine was built with (R5). No operation changes them (log
  entry 21). -/
  params : Params
  /-- MODEL'S OWN, an output: what the last Load or Step returned (R119). Nothing in the engine reads it (R260;
  log entry 1). -/
  result : Result
  /-- MODEL'S OWN: whether a Load is legal now, that is, neither a Step nor a successful Load came since Reset
  (R296; log entry 10). -/
  loadOpen : Bool
  /-- MODEL'S OWN, an input: the `now` the next Step is given (R113; log entry 2). -/
  now : Nat
  /-- MODEL'S OWN, an input: the `rand8` the next Step is given (R113; log entry 2). -/
  rand8 : Byte
  /-- MODEL'S OWN: how many pairs of inputs have been drawn from the free values (log entry 2). -/
  draws : Nat
  deriving DecidableEq, Repr

/-- Stops with a fault. `step` and `exec` raise NONE of them: an error is a result, after which the engine goes on
(R258, R260; log entry 1). They are raised by `haltOnErr` of Safety.lean alone, the step of a driver that halts on
the first error (R122 item 5; log entry 19). -/
inductive Fault where
  /-- Raised by `haltOnErr` after a step that returned StackOverflow; safe. -/
  | stackOverflow
  /-- Raised by `haltOnErr` after a step that returned StackUnderflow; safe. -/
  | stackUnderflow
  /-- Raised by `haltOnErr` after a step that returned MemoryBoundsError; safe. -/
  | memoryBounds
  /-- Raised by `haltOnErr` after a Load that returned LoadError; safe. -/
  | loadError
  deriving DecidableEq, Repr

/-- Refusals: behaviour the model gives no meaning. -/
inductive Refusal where
  /-- An instruction with no meaning yet; raised by an arm of `exec` only (no arm raises it); safe. -/
  | notModelled (mnemonic : String)
  /-- Raised by the driver's operation `load` alone: a Load that is not directly after Reset has no defined
  behaviour (R296, U1; log entry 10); safe. -/
  | loadNotAfterReset
  deriving DecidableEq, Repr

/-- The engine with the parameters `p` right after `Reset(now0)` (R38, R290). The inputs of the next Step and the
counter they are drawn with are the driver's: they are the pair of number `draws`. -/
def State.resetAt (p : Params) (now0 : Nat) (draws : Nat) : State where
  v := Vector.replicate 16 0x00#8
  i := 0x0000#16
  pc := 0x0200#16
  sp := 0
  stack := List.replicate p.stackCapacity 0x0000#16
  dt := 0x00#8
  st := 0x00#8
  mem := []
  fb := Vector.replicate Config.fbHeight 0#Config.fbWidth
  fbChanged := false
  key := Vector.replicate Config.numKeys false
  tickRef := now0
  params := p
  result := .ok
  loadOpen := true
  now := Config.nextNow draws
  rand8 := Config.nextRand8 draws
  draws := draws + 1

/-- The machine right after reset: `Reset(0)` (R38; the time origin is the model's choice, log entry 4) of this
hardware's parameters. -/
def State.reset : State := State.resetAt Config.params 0 0

end Sys2Proof.Machine
end

