-- ==== Sys2Proof/Machine/Memory.lean ====
section
/-!
DEFINITION. Memory (R50 to R59): its reset contents, the read and the write of one byte, and its canonical form.
Each takes the font bytes, the parameter of R5 that the reset contents depend on.
-/

namespace Sys2Proof

namespace Machine

/-- What an unlisted address reads as: the contents after Reset, zero but for the font table (R30, R38). -/
def resetByte (font : Vector Byte Config.fontSize) (a : Nat) : Byte :=
  if h : Config.fontBase ≤ a ∧ a < Config.fontBase + Config.fontSize then
    font[a - Config.fontBase]'(Nat.sub_lt_left_of_lt_add h.1 h.2)
  else 0x00

/-- The spec's `mem[a]`: the byte at `a` (R8, R58). -/
def peek (font : Vector Byte Config.fontSize) (m : List Host.Cell) (a : Nat) : Byte :=
  match m with
  | [] => resetByte font a
  | (b, w) :: rest => if b = a then w else peek font rest a

/-- A cell in front of cells, left out when it holds the reset contents (the canonical form). -/
def consCell (font : Vector Byte Config.fontSize) (a : Nat) (x : Byte) (m : List Host.Cell) : List Host.Cell :=
  if x = resetByte font a then m else (a, x) :: m

/-- The spec's `mem[a] <- x` (R8, R55), keeping the canonical form. -/
def poke (font : Vector Byte Config.fontSize) (m : List Host.Cell) (a : Nat) (x : Byte) : List Host.Cell :=
  match m with
  | [] => consCell font a x []
  | (b, w) :: rest =>
    if a < b then consCell font a x ((b, w) :: rest)
    else if a = b then consCell font a x rest
    else (b, w) :: poke font rest a x

/-- Bytes written to rising addresses from `a` (R52: the order of every multi-byte sequence). -/
def pokeAll (font : Vector Byte Config.fontSize) (m : List Host.Cell) (a : Nat) (xs : List Byte) : List Host.Cell :=
  match xs with
  | [] => m
  | x :: rest => pokeAll font (poke font m a x) (a + 1) rest

/-- The canonical form: addresses strictly rising and inside memory, no entry equal to what an unlisted address
reads as (log entry 15). -/
abbrev MemWf (font : Vector Byte Config.fontSize) (m : List Host.Cell) : Prop :=
  m.Pairwise (fun c d => c.1 < d.1) ∧ ∀ c ∈ m, c.1 < Config.memSize ∧ c.2 ≠ resetByte font c.1

/-- The bounds check on the `n` bytes from `a` (R55, R57). The sum is exact (R56); no byte needs no check (DXYN
with N = 0). -/
def inRange (a n : Nat) : Bool := n == 0 || decide (a + n ≤ Config.memSize)

end Machine

end Sys2Proof
end

