-- ==== Sys2Proof/Machine/Ops.lean ====
section
/-!
DEFINITION. The shared operations over registers, stack, framebuffer and memory, the two ways an instruction ends,
and the raising of an error.
-/

namespace Sys2Proof.Machine

/-- How every operation answers. -/
abbrev Answer := Host.Outcome State Fault Refusal

/-! ### How an instruction ends -/

/-- The instruction completes: the step's result is `OK` (R114, R119). -/
def retOk (s : State) : Answer := .next { s with result := .ok }

/-- TAKING AN EXCEPTION on this hardware: `raise E` (R8). The execute phase ends with result `Err(E)` and writes
nothing else: no state is saved, PC is not redirected, there is no handler (R258, R259). The engine goes on from
there (R260), so this is a next state (log entry 1). There is no return from it (R262). -/
def raiseErr (e : Err) (s : State) : Answer := .next { s with result := .err e }

/-- The check before any effect (R57): the `n` bytes from `a` must lie in memory, else MemoryBoundsError. -/
def whenInRange (a n : Nat) (s t : State) : Answer :=
  if inRange a n then retOk t else raiseErr .memoryBounds s

/-- Applies `f` to the next state of an answer. -/
def mapNext (f : State → State) (o : Answer) : Answer :=
  match o with
  | .next s => .next (f s)
  | .fault r => .fault r
  | .refused r => .refused r

/-! ### Registers -/

/-- `V[x]` (R8, R21). -/
def getV (s : State) (x : Nibble) : Byte := s.v[x.toNat]'x.isLt

/-- `V[x] <- b` (R8, R21): all 16 registers are writable, none is hardwired. -/
def setV (s : State) (x : Nibble) (b : Byte) : State := { s with v := s.v.set x.toNat b x.isLt }

/-- The number of VF (R22). -/
abbrev vF : Nibble := 0xF

/-- `PC <- target`. -/
def setPc (s : State) (target : Word) : State := { s with pc := target }

/-- `I <- a`. -/
def setI (s : State) (a : Word) : State := { s with i := a }

/-- "Skip next instruction (PC += 2)" when `c` holds, modulo 65536 (R140). -/
def skipIf (c : Bool) (s : State) : State := setPc s (if c then s.pc + 2 else s.pc)

/-! ### Memory -/

/-- `mem[a]` (R8, R58). -/
def memByte (s : State) (a : Nat) : Byte := peek s.params.font s.mem a

/-! ### The call stack (R25, R26) -/

/-- Push PC; `none` when the stack is full (R143). -/
def pushPc (s : State) : Option State :=
  if s.sp = s.params.stackCapacity then none
  else some { s with stack := s.stack.set s.sp s.pc, sp := s.sp + 1 }

/-- Pop a return address into PC; `none` when the stack is empty (R141). The 0 stands for an entry that does not exist, which
`Inv` rules out (log entry 8). -/
def popPc (s : State) : Option State :=
  if s.sp = 0 then none
  else some { s with sp := s.sp - 1, pc := s.stack.getD (s.sp - 1) 0x0000 }

/-! ### The framebuffer (R32, R210, R212) -/

/-- `fb[k]`, the cell of pixel `(k mod 64, k div 64)` (R8, R32, R210); there is no cell from 2048 up. -/
def cell (s : State) (k : Nat) : Bool :=
  if h : k / Config.fbWidth < Config.fbHeight then (s.fb[k / Config.fbWidth]'h).getLsbD (k % Config.fbWidth)
  else false

/-- All cells 0, and the flag is set (R211). -/
def clearDisplay (s : State) : State :=
  { s with fb := Vector.replicate Config.fbHeight 0#Config.fbWidth, fbChanged := true }

/-- A set sprite bit at column `x` and row `y` (R212, innermost statements): outside the framebuffer it is clipped
and does nothing; inside, VF becomes 1 if the pixel was lit, the pixel is toggled, the flag is set. -/
def togglePixel (x y : Nat) (s : State) : State :=
  if h : x < Config.fbWidth ∧ y < Config.fbHeight then
    let row := s.fb[y]'h.2
    { s with
      v := if row.getLsbD x then s.v.set 15 0x01 else s.v
      fb := s.fb.set y (row ^^^ BitVec.twoPow Config.fbWidth x) h.2
      fbChanged := true }
  else s

/-- One sprite row `b` at `(x0, y)`: sprite column `col` is bit `7 - col` (R210, R212). -/
def drawRow (x0 y : Nat) (b : Byte) (s : State) : State :=
  (List.range 8).foldl (fun t col => if b.getLsbD (7 - col) then togglePixel (x0 + col) y t else t) s

/-- `n` sprite rows at `(x0, y0)`, row `r` from `mem[I + r]` (R212 step 4). -/
def drawRows (x0 y0 n : Nat) (s : State) : State :=
  (List.range n).foldl (fun t r => drawRow x0 (y0 + r) (memByte t (t.i.toNat + r)) t) s

/-! ### Block moves between registers and memory (R195, R196) -/

/-- The bytes of V0 to V(n-1), in order. -/
def firstRegs (s : State) (n : Nat) : List Byte := (List.range n).map (fun k => getV s (BitVec.ofNat 4 k))

/-- `xs` stored at rising addresses from `a`; the caller has checked the range (R55, R57). -/
def storeBytes (s : State) (a : Nat) (xs : List Byte) : State := { s with mem := pokeAll s.params.font s.mem a xs }

/-- `V[k] <- mem[a + k]` for `k` from 0 to `n - 1` (R196). -/
def loadRegs (s : State) (a n : Nat) : State :=
  (List.range n).foldl (fun t k => setV t (BitVec.ofNat 4 k) (memByte t (a + k))) s

end Sys2Proof.Machine
end

