-- ==== Sys2Proof/Machine/Cycle.lean ====
section
/-!
DEFINITION. The phases of a step around execute (R114): the timer tick (R265), the fetch (R115), the no-op of an
undefined word (R90), and what the interface does after a step (log entries 2 and 10).
-/

namespace Sys2Proof.Machine

/-! ### Phase 1, the timer tick -/

/-- Whether a tick is due: `now - tick_ref >= TICK_PERIOD` on exact, signed numbers (R265 (f)). -/
def tickDue (s : State) : Bool := decide (s.tickRef + Config.tickPeriod ≤ s.now)

/-- One timer at a tick: down by one, with floor 0 (R266). -/
def countDown (due : Bool) (t : Byte) : Byte := if t = 0x00 then 0x00 else if due then t - 1 else t

/-- `TimerTick(now)` (R265): at most one decrement, both timers together, the reference moves to `now`. -/
def timerTick (s : State) : State :=
  { s with
    dt := countDown (tickDue s) s.dt
    st := countDown (tickDue s) s.st
    tickRef := if tickDue s then s.now else s.tickRef }

/-! ### Phase 2, the fetch -/

/-- `MemRead(PC, 2)` (R55, R115): big-endian, at any parity of PC; MemoryBoundsError when PC > 4094. -/
def fetchWord (s : State) : Except Err Word :=
  if inRange s.pc.toNat 2 then .ok (joinBytes (memByte s s.pc.toNat) (memByte s (s.pc.toNat + 1)))
  else .error .memoryBounds

/-- `PC <- (PC + 2) mod 65536` (R115). -/
def advancePc (s : State) : State := setPc s (s.pc + 2)

/-! ### Phases 3 and 4 of an undefined word -/

/-- An undefined word is a no-op with result `OK` (R90, R119). -/
def undefinedWord (_why : DecodeError) (s : State) : Answer := retOk s

/-! ### After the step -/

/-- What the interface does once the step has ended: a Load is no longer legal (R296), and the driver's two inputs
of the next Step are drawn afresh (R113). The engine's own state is untouched. -/
def endStep (s : State) : State :=
  { s with
    loadOpen := false
    now := Config.nextNow s.draws
    rand8 := Config.nextRand8 s.draws
    draws := s.draws + 1 }

/-- Stores an instruction's bytes where the next fetch reads them; where they do not all lie in memory nothing is
stored. -/
def placeBytes (s : State) (xs : List Byte) : State :=
  if inRange s.pc.toNat xs.length then storeBytes s s.pc.toNat xs else s

end Sys2Proof.Machine
end

