-- ==== Sys2Proof/Machine/Operands.lean ====
section
/-!
DEFINITION. The operand forms (R83, R190, R193, R194, R210, R230): what an instruction computes from a field or a
register before it acts.
-/

namespace Sys2Proof.Machine

/-- `zext_16(addr)` (R83). -/
def zextAddr (addr : Addr) : Word := addr.setWidth 16

/-- `zext_16` of a byte (R8). -/
def zextByte (b : Byte) : Word := b.setWidth 16

/-- The base address of a data access, an exact natural number (R56, R190). -/
def baseAddr (s : State) : Nat := s.i.toNat

/-- The operand of a shift: V[X], and V[Y] on an engine built with `SHIFT_USES_VY` (R169, R171, U5; what true means is
PRESUMED from G3, log entry 9). -/
def shiftOperand (x y : Nibble) (s : State) : Byte :=
  if s.params.shiftUsesVY then getV s y else getV s x

/-- The column a sprite starts at, wrapped at draw start only (R212 step 1). -/
def originX (s : State) (x : Nibble) : Nat := (getV s x).toNat % Config.fbWidth

/-- The row a sprite starts at (R212 step 1). -/
def originY (s : State) (y : Nibble) : Nat := (getV s y).toNat % Config.fbHeight

/-- The key a register selects: its low four bits (R230). -/
def keyDown (s : State) (x : Nibble) : Bool := s.key[(getV s x).toNat % 16]'(Nat.mod_lt _ (by decide))

/-- The least pressed key, if any (R234): the latches are scanned from 0 upward. -/
def leastKey (s : State) : Option Nat := (List.range Config.numKeys).find? (fun k => s.key.toList.getD k false)

/-- The three decimal digits of a byte, hundreds first (R194). -/
def bcdDigits (b : Byte) : List Byte :=
  [BitVec.ofNat 8 (b.toNat / 100), BitVec.ofNat 8 (b.toNat / 10 % 10), BitVec.ofNat 8 (b.toNat % 10)]

/-- The address of the glyph of a byte, `0x50 + 5 * b`, not masked (R193). -/
def glyphAddr (b : Byte) : Word := BitVec.ofNat 16 (Config.fontBase + 5 * b.toNat)

end Sys2Proof.Machine
end

