-- ==== Sys2Proof/Machine/Flags.lean ====
section
/-!
DEFINITION. The values the flag register VF receives (R22). A flag is the byte 0 or 1.
-/

namespace Sys2Proof.Machine

/-- The byte of a flag. -/
def flagByte (c : Bool) : Byte := if c then 0x01 else 0x00

/-- 8XY4: the carry, `sum > 255` (R167). -/
def carryFlag (sum : Nat) : Byte := flagByte (decide (sum > 255))

/-- 8XY5 and 8XY7: not-borrow, 1 when the minuend is STRICTLY greater (R168, R170). -/
def notBorrowFlag (minuend subtrahend : Byte) : Byte := flagByte (decide (minuend.toNat > subtrahend.toNat))

/-- 8XY6: the bit shifted out at the right, bit 0 (R169). -/
def lowBitFlag (b : Byte) : Byte := flagByte (b.getLsbD 0)

/-- 8XYE: the bit shifted out at the left, bit 7 (R171). -/
def highBitFlag (b : Byte) : Byte := flagByte (b.getLsbD 7)

end Sys2Proof.Machine
end

