-- ==== Sys2Proof/Machine/Alu.lean ====
section
/-!
DEFINITION. The register and ALU instructions (R160 to R173). The statements of an instruction run in the order
written, each reading what the one before left (R160): the flag first, the result second. Byte arithmetic is
modulo 256 (R173).
-/

namespace Sys2Proof.Machine

/-- 6XNN, R161. -/
def execLdImm (x : Nibble) (imm : Byte) (s : State) : Answer := retOk (setV s x imm)

/-- 7XNN, R162: the carry is discarded, VF is not written. -/
def execAddImm (x : Nibble) (imm : Byte) (s : State) : Answer := retOk (setV s x (getV s x + imm))

/-- 8XY0, R163. -/
def execLdReg (x y : Nibble) (s : State) : Answer := retOk (setV s x (getV s y))

/-- 8XY1, R164. -/
def execOr (x y : Nibble) (s : State) : Answer := retOk (setV s x (getV s x ||| getV s y))

/-- 8XY2, R165. -/
def execAnd (x y : Nibble) (s : State) : Answer := retOk (setV s x (getV s x &&& getV s y))

/-- 8XY3, R166. -/
def execXor (x y : Nibble) (s : State) : Answer := retOk (setV s x (getV s x ^^^ getV s y))

/-- 8XY4, R167: `sum` is latched before VF is written. -/
def execAddReg (x y : Nibble) (s : State) : Answer :=
  let sum := (getV s x).toNat + (getV s y).toNat
  retOk (setV (setV s vF (carryFlag sum)) x (BitVec.ofNat 8 sum))

/-- 8XY5, R168: the subtraction reads the registers after VF is written. -/
def execSub (x y : Nibble) (s : State) : Answer :=
  let t := setV s vF (notBorrowFlag (getV s x) (getV s y))
  retOk (setV t x (getV t x - getV t y))

/-- 8XY6, R169. -/
def execShr (x y : Nibble) (s : State) : Answer :=
  let t := setV s vF (lowBitFlag (shiftOperand x y s))
  retOk (setV t x (shiftOperand x y t >>> 1))

/-- 8XY7, R170: the subtraction reads the registers after VF is written. -/
def execSubn (x y : Nibble) (s : State) : Answer :=
  let t := setV s vF (notBorrowFlag (getV s y) (getV s x))
  retOk (setV t x (getV t y - getV t x))

/-- 8XYE, R171. -/
def execShl (x y : Nibble) (s : State) : Answer :=
  let t := setV s vF (highBitFlag (shiftOperand x y s))
  retOk (setV t x (shiftOperand x y t <<< 1))

/-- CXNN, R172: `rand8` is the step's free input. -/
def execRnd (x : Nibble) (imm : Byte) (s : State) : Answer := retOk (setV s x (s.rand8 &&& imm))

end Sys2Proof.Machine
end

