-- ==== Sys2Proof/Machine/Control.lean ====
section
/-!
DEFINITION. The control-flow instructions (R140 to R148). `pc` is already the address of the instruction after this
one (R115, R140).
-/

namespace Sys2Proof.Machine

/-- 00EE, R141: pop PC, StackUnderflow on an empty stack. X and Y are ignored (R85). -/
def execRet (_x _y : Nibble) (s : State) : Answer :=
  match popPc s with
  | some t => retOk t
  | none => raiseErr .stackUnderflow s

/-- 1NNN, R142. -/
def execJp (addr : Addr) (s : State) : Answer := retOk (setPc s (zextAddr addr))

/-- 2NNN, R143: push the advanced PC, StackOverflow on a full stack. -/
def execCall (addr : Addr) (s : State) : Answer :=
  match pushPc s with
  | some t => retOk (setPc t (zextAddr addr))
  | none => raiseErr .stackOverflow s

/-- 3XNN, R144. -/
def execSeImm (x : Nibble) (imm : Byte) (s : State) : Answer := retOk (skipIf (getV s x == imm) s)

/-- 4XNN, R145. -/
def execSneImm (x : Nibble) (imm : Byte) (s : State) : Answer := retOk (skipIf (getV s x != imm) s)

/-- 5XY0, R146. N is ignored (R86). -/
def execSeReg (x y _n : Nibble) (s : State) : Answer := retOk (skipIf (getV s x == getV s y) s)

/-- 9XY0, R147. N is ignored (R86). -/
def execSneReg (x y _n : Nibble) (s : State) : Answer := retOk (skipIf (getV s x != getV s y) s)

/-- BNNN, R148: the sum is not reduced to 12 bits. -/
def execJpV0 (addr : Addr) (s : State) : Answer :=
  retOk (setPc s (zextAddr addr + zextByte (getV s 0x0)))

end Sys2Proof.Machine
end

