-- ==== Sys2Proof/Machine/Display.lean ====
section
/-!
DEFINITION. The display instructions (R210 to R213).
-/

namespace Sys2Proof.Machine

/-- 00E0, R211: the flag is set whatever the screen held. X and Y are ignored (R85). -/
def execCls (_x _y : Nibble) (s : State) : Answer := retOk (clearDisplay s)

/-- DXYN, R212: origin from the old registers, range check, VF reset, then the rows. -/
def execDrw (x y n : Nibble) (s : State) : Answer :=
  whenInRange (baseAddr s) n.toNat s
    (drawRows (originX s x) (originY s y) n.toNat (setV s vF 0x00))

end Sys2Proof.Machine
end

