-- ==== Sys2Proof/Machine/Index.lean ====
section
/-!
DEFINITION. The index-register and memory instructions (R190 to R196). None changes I as a side effect (R190); each
that accesses memory checks its whole range first (R57).
-/

namespace Sys2Proof.Machine

/-- ANNN, R191. -/
def execLdI (addr : Addr) (s : State) : Answer := retOk (setI s (zextAddr addr))

/-- FX1E, R192: modulo 65536, never masked to 12 bits, no flag. -/
def execAddI (x : Nibble) (s : State) : Answer := retOk (setI s (s.i + zextByte (getV s x)))

/-- FX29, R193. -/
def execLdFont (x : Nibble) (s : State) : Answer := retOk (setI s (glyphAddr (getV s x)))

/-- FX33, R194. -/
def execLdBcd (x : Nibble) (s : State) : Answer :=
  whenInRange (baseAddr s) 3 s (storeBytes s (baseAddr s) (bcdDigits (getV s x)))

/-- FX55, R195: X is the number of the last register. -/
def execStore (x : Nibble) (s : State) : Answer :=
  whenInRange (baseAddr s) (x.toNat + 1) s (storeBytes s (baseAddr s) (firstRegs s (x.toNat + 1)))

/-- FX65, R196. -/
def execLoad (x : Nibble) (s : State) : Answer :=
  whenInRange (baseAddr s) (x.toNat + 1) s (loadRegs s (baseAddr s) (x.toNat + 1))

end Sys2Proof.Machine
end

