-- ==== Sys2Proof/Machine/KeysTimers.lean ====
section
/-!
DEFINITION. The key and timer instructions (R230 to R237).
-/

namespace Sys2Proof.Machine

/-- EX9E, R231. -/
def execSkp (x : Nibble) (s : State) : Answer := retOk (skipIf (keyDown s x) s)

/-- EXA1, R232. -/
def execSknp (x : Nibble) (s : State) : Answer := retOk (skipIf (!keyDown s x) s)

/-- FX07, R233. -/
def execLdFromDT (x : Nibble) (s : State) : Answer := retOk (setV s x s.dt)

/-- FX0A, R234: with a key down its number is stored; with none PC goes back to this instruction. -/
def execLdKey (x : Nibble) (s : State) : Answer :=
  match leastKey s with
  | some k => retOk (setV s x (BitVec.ofNat 8 k))
  | none => retOk (setPc s (s.pc - 2))

/-- FX15, R235; the tick reference is not touched. -/
def execLdToDT (x : Nibble) (s : State) : Answer := retOk { s with dt := getV s x }

/-- FX18, R236. -/
def execLdToST (x : Nibble) (s : State) : Answer := retOk { s with st := getV s x }

end Sys2Proof.Machine
end

