-- ==== Sys2Proof/Machine/Step.lean ====
section
/-!
DEFINITION. The step of the machine (R114): Step with the inputs `now` and `rand8` that the state holds.
-/

namespace Sys2Proof.Machine

/-- Phases 3 and 4 (R116, R117): decode the word and execute it; an undefined word does nothing (R90). -/
def execWord (w : Word) (s : State) : Host.Outcome State Fault Refusal :=
  match decodeWord w with
  | .ok i => exec i s
  | .error why => undefinedWord why s

/-- Phases 2 to 4 (R114): a fetch that fails leaves PC where it is and ends the step (R115, R258). -/
def runPhases (s : State) : Host.Outcome State Fault Refusal :=
  match fetchWord s with
  | .ok w => execWord w (advancePc s)
  | .error e => raiseErr e s

/-- One Step (R114): timer tick, fetch, decode, execute; then the interface's own bookkeeping. -/
def step (s : State) : Host.Outcome State Fault Refusal := mapNext endStep (runPhases (timerTick s))

/-- `s` with the instruction of the opcode table's word `w` stored where `step` fetches its next instruction. -/
def State.withFetchWord (s : State) (nbits w : Nat) : State := placeBytes s (tableBytes nbits w)

end Sys2Proof.Machine
end

