-- ==== Sys2Proof/Machine/Driver.lean ====
section
/-!
DEFINITION. The interface's seven operations (R111), each invoked by the driver between two steps (R65, R112).
-/

namespace Sys2Proof.Machine

/-- The two arguments of the next Step (R113), as the driver gives them. -/
def withInputs (now : Nat) (rand8 : Byte) (s : State) : State := { s with now := now, rand8 := rand8 }

/-- `Step(now, rand8)` (R113). -/
def stepWith (now : Nat) (rand8 : Byte) (s : State) : Answer := step (withInputs now rand8 s)

/-- `Reset(now)` (R290, R292): every piece of the engine's state to its reset value. The driver's inputs go on
being drawn where they were (log entry 13), and the parameters are those the engine was built with (log entry 21). -/
def resetOp (now : Nat) (s : State) : State := State.resetAt s.params now s.draws

/-- `Load(bytes, readable)` (R293 to R296): refused unless directly after Reset; LoadError, and no change, on an
unreadable source or more than 3584 bytes. -/
def loadOp (bytes : List Byte) (readable : Bool) (s : State) : Answer :=
  if !s.loadOpen then .refused .loadNotAfterReset
  else if !readable then raiseErr .loadError s
  else if Config.progBase + bytes.length > Config.memSize then raiseErr .loadError s
  else retOk { storeBytes s Config.progBase bytes with loadOpen := false }

/-- `WriteKeys(k)` (R120). -/
def writeKeys (k : Vector Bool Config.numKeys) (s : State) : State := { s with key := k }

/-- `AckDisplay()` (R121). -/
def ackDisplay (s : State) : State := { s with fbChanged := false }

/-- `ReadFramebuffer()` (R123): the 2048 cells in index order and the flag; it changes nothing. -/
def readFramebuffer (s : State) : List Bool × Bool := ((List.range Config.fbCells).map (cell s), s.fbChanged)

/-- `Tone()` (R29, R123): true while ST is nonzero; it changes nothing. -/
def tone (s : State) : Bool := s.st != 0x00

/-- The operations of the interface (R111). -/
inductive Op where
  | reset (now : Nat)
  | load (bytes : List Byte) (readable : Bool)
  | writeKeys (k : Vector Bool Config.numKeys)
  | step (now : Nat) (rand8 : Byte)
  | readFramebuffer
  | ackDisplay
  | tone
  deriving DecidableEq, Repr

/-- One operation of the driver on the engine (R111, R112). The two queries change nothing (R123). -/
def perform (op : Op) (s : State) : Answer :=
  match op with
  | .reset now => .next (resetOp now s)
  | .load bytes readable => loadOp bytes readable s
  | .writeKeys k => .next (writeKeys k s)
  | .step now rand8 => stepWith now rand8 s
  | .readFramebuffer => .next s
  | .ackDisplay => .next (ackDisplay s)
  | .tone => .next s

/-- The code of a result (R251). -/
def resultCode (r : Result) : Nat :=
  match r with
  | .ok => 0
  | .err .loadError => 1
  | .err .stackOverflow => 2
  | .err .stackUnderflow => 3
  | .err .memoryBounds => 4

end Sys2Proof.Machine
end

