-- ==== Sys2Proof/Safety.lean ====
section
/-!
DEFINITION. The terms the claims use: what a safe run is, the invariant of the machine, what an instruction leaves
unchanged, and the closed forms the claims compare the machine with.
-/

namespace Sys2Proof.Machine

/-! ### Safe runs -/

/-- A state is safe when the last Load or Step returned `OK` (R119). -/
def Safe (s : State) : Bool := s.result == .ok

/-- The fault of an error, for a driver that halts on errors. -/
def faultOf (e : Err) : Fault :=
  match e with
  | .loadError => .loadError
  | .stackOverflow => .stackOverflow
  | .stackUnderflow => .stackUnderflow
  | .memoryBounds => .memoryBounds

/-- The answer as a driver that halts on the first error sees it: "The driver decides whether a surfaced error halts
execution or is logged and skipped" (R122 item 5, R260; log entry 19). `step` itself is the other driver's, which
goes on from the state of R258. -/
def haltOnErr (o : Answer) : Answer :=
  match o with
  | .next s =>
    match s.result with
    | .ok => .next s
    | .err e => .fault (faultOf e)
  | .fault r => .fault r
  | .refused r => .refused r

/-! ### The invariant -/

/-- What every operation keeps (R24, R26, R39): memory is in canonical form, PC is at most 0x10FE (BNNN with
NNN = 0xFFF and V0 = 0xFF), SP is at most STACK_CAPACITY, the stack has that many entries, and every entry is at most
0x1000 (the call fetched at 0xFFE, R143); the parameters are legal (R5). -/
structure Inv (s : State) : Prop where
  memWf : MemWf s.params.font s.mem
  pcMax : s.pc.toNat ≤ 0x10FE
  legal : s.params.Legal
  spMax : s.sp ≤ s.params.stackCapacity
  stackLen : s.stack.length = s.params.stackCapacity
  stackMax : ∀ w ∈ s.stack, w.toNat ≤ 0x1000

/-! ### Frames -/

/-- The instruction completed and changed registers only, and among them only those in `changed`. -/
def OnlyRegs (changed : List Nibble) (s t : State) : Prop :=
  t = { s with v := t.v, result := .ok } ∧ ∀ r, r ∉ changed → getV t r = getV s r

/-- The instruction completed and changed memory only, and there only the `n` bytes from `a`. -/
def OnlyBytes (a n : Nat) (s t : State) : Prop :=
  t = { s with mem := t.mem, result := .ok } ∧ ∀ c, ¬(a ≤ c ∧ c < a + n) → memByte t c = memByte s c

/-- The instruction raised `e` and wrote nothing (R258). -/
def Raised (e : Err) (s : State) : State := { s with result := .err e }

/-! ### Closed forms -/

/-- A row of the opcode map (R92): every word `w` with `w AND mask = value` decodes to `f w`. -/
def Encodes (mask value : Word) (f : Word → Instr) : Prop :=
  ∀ w : Word, w &&& mask = value → decodeWord w = .ok (f w)

/-- The word the next fetch reads: the bytes at PC and PC + 1, the first most significant (R52). -/
def WordAtPc (s : State) (w : Word) : Prop :=
  s.pc.toNat + 1 ≤ 4095 ∧ w = memByte s s.pc.toNat ++ memByte s (s.pc.toNat + 1)

/-- The instruction the next step executes. -/
def NextIs (s : State) (i : Instr) : Prop := ∃ w, WordAtPc s w ∧ decodeWord w = .ok i

/-- `m[k]` of R213 (a): whether a set sprite bit of the draw of `n` rows at `(x0, y0)` lands, unclipped, on cell
`k`, the pixel `(k mod 64, k div 64)`: that pixel lies in the sprite's rectangle and the bit of its row's byte is
set. -/
def spriteBit (s : State) (x0 y0 n k : Nat) : Bool :=
  decide (x0 ≤ k % 64 ∧ k % 64 < x0 + 8 ∧ y0 ≤ k / 64 ∧ k / 64 < y0 + n ∧ k < 2048) &&
    (memByte s (s.i.toNat + (k / 64 - y0))).getLsbD (7 - (k % 64 - x0))

/-- Whether a tick is due (R265): at least 1000 units of 1/60000 s have passed since the reference. -/
def TickDue (s : State) : Prop := (s.now : Int) - (s.tickRef : Int) ≥ 1000

end Sys2Proof.Machine
end

