-- ==== Sys2Proof/Certificates/Slice0/Obligations.lean ====
section
/-!
DEFINITION. The statements for the provers. Each docstring names the rule of spec/ it formalises; where a clause rests on
a decision D<n> that the spec marks as its own choice, it says so (those decisions are gathered in log entry 17).
-/

open Sys2Proof Sys2Proof.Machine

/-! ### Encoding and decoding -/

/-- R80, R81, R84, R92: decoding the bytes of any instruction, whatever follows them, gives that instruction back and leaves
the bytes that follow. That an instruction keeps its ignored fields, so that they come back too, is the MODEL'S choice (log
entry 16): by R91, which rests on the spec's decisions D9 and D11, several words decode to one instruction of the spec. -/
def Obligations.DecodeOfEncodeIsIdentity : Prop :=
  ∀ (i : Instr) (rest : List Byte), decode (encodeBytes i ++ rest) = .ok (i, rest)

/-- R84, R92, the other direction: a word that decodes is the encoding of what it decodes to. That no two words share a term
of `Instr` and no bit of a word is dropped is the MODEL'S choice, which keeps the ignored fields in the syntax (log entry 16):
by R91, which rests on the spec's decisions D9 and D11, several words decode to one instruction of the spec. -/
def Obligations.EncodeOfDecodeIsIdentity : Prop :=
  ∀ (w : Word) (i : Instr), decodeWord w = .ok i → encode i = w

/-- R90, R96: the words that are no instruction are exactly those of the table of undefined words. That group 0 goes
by N alone and group 0xE by the low byte rests on the spec's decisions D9 and D10. -/
def Obligations.UndefinedWordsAreExactly : Prop :=
  ∀ w : Word, (∃ e, decodeWord w = .error e) ↔
    (w.extractLsb' 12 4 = 0x0#4 ∧ w.extractLsb' 0 4 ∉ [0x0#4, 0xE#4]) ∨
    (w.extractLsb' 12 4 = 0x8#4 ∧ w.extractLsb' 0 4 ∈ [0x8#4, 0x9#4, 0xA#4, 0xB#4, 0xC#4, 0xD#4, 0xF#4]) ∨
    (w.extractLsb' 12 4 = 0xE#4 ∧ w.extractLsb' 0 8 ∉ [0x9E#8, 0xA1#8]) ∨
    (w.extractLsb' 12 4 = 0xF#4 ∧
      w.extractLsb' 0 8 ∉ [0x07#8, 0x0A#8, 0x15#8, 0x18#8, 0x1E#8, 0x29#8, 0x33#8, 0x55#8, 0x65#8])

/-- R80, R92: a few words, one of each format, written out from the opcode map. A sanity statement. -/
def Obligations.SampleWordsDecodeAsTheMapSays : Prop :=
  decodeTableWord 16 0x00E0 = some (.cls 0x0 0xE) ∧ decodeTableWord 16 0x00EE = some (.ret 0x0 0xE) ∧
  decodeTableWord 16 0x2300 = some (.call 0x300) ∧ decodeTableWord 16 0x332A = some (.seImm 0x3 0x2A) ∧
  decodeTableWord 16 0x8127 = some (.subn 0x1 0x2) ∧ decodeTableWord 16 0xD012 = some (.drw 0x0 0x1 0x2) ∧
  decodeTableWord 16 0xE2A1 = some (.sknp 0x2) ∧ decodeTableWord 16 0xF165 = some (.load 0x1) ∧
  decodeTableWord 16 0x8008 = none

/-- R85, R86, R91 (the spec's decisions D9 and D11): an instruction and its canonical form, which is well-formed, act
alike on every state. -/
def Obligations.AliasesRunAsTheirCanonicalForm : Prop :=
  ∀ (i : Instr) (s : State), i.canonical.wellFormed = true ∧ (i.wellFormed = true ↔ i.canonical = i) ∧
    exec i s = exec i.canonical s

/-! ### The step -/

/-- R114, R116, R117: when the word at PC decodes to an instruction, a step is the timer tick, the advance of PC, the
execution of that instruction, and then the interface's own bookkeeping (`endStep`), around it. -/
def Obligations.StepRunsDecodedInstruction : Prop :=
  ∀ (s : State) (i : Instr), NextIs s i → step s = mapNext endStep (exec i (advancePc (timerTick s)))

/-- R115: the fetch. With PC + 1 above 4095 the step raises MemoryBoundsError, PC is not advanced and no phase after the
tick runs; otherwise the word is `mem[PC] ++ mem[PC+1]`, PC goes up by 2 modulo 65536, and the step goes on with
that word. That a failed fetch leaves everything else as the tick left it is the spec's decision D7 (R258; log entry 17); that
the error is a next state is log entry 1; around both clauses stands the model's own bookkeeping after a step, `endStep`
(log entries 2, 10). -/
def Obligations.FetchReadsTwoBytesAndAdvances : Prop :=
  ∀ s : State,
    (s.pc.toNat + 1 > 4095 → step s = .next (endStep { timerTick s with result := .err .memoryBounds })) ∧
    (s.pc.toNat + 1 ≤ 4095 → ∀ w : Word,
      w.toNat = (memByte s s.pc.toNat).toNat * 256 + (memByte s (s.pc.toNat + 1)).toNat →
      step s = mapNext endStep
        (execWord w { timerTick s with pc := BitVec.ofNat 16 ((s.pc.toNat + 2) % 65536) }))

/-- R90: an undefined word is a no-op with result OK. That the tick and the advance of PC still happen rests on the
spec's decision D32. -/
def Obligations.UndefinedWordIsANoOp : Prop :=
  ∀ (s : State) (w : Word) (e : DecodeError), WordAtPc s w → decodeWord w = .error e →
    step s = .next (endStep { timerTick s with pc := s.pc + 2, result := .ok })

/-- R113, R119, R124 and the last paragraph of part 1 of 93_implementation_defined.md ("every Step from every
reachable state returns a result"): from EVERY state a step answers a next state, and its result is not LoadError. -/
def Obligations.EveryStepReturns : Prop :=
  ∀ s : State, ∃ t, step s = .next t ∧ t.result ≠ .err .loadError

/-- R265, R266 (the form of time is decision D2, log entry 3): a tick is due when at least 1/60 s has passed; then each
nonzero timer goes down by one, a zero timer stays, and the reference moves to `now`; otherwise nothing happens. -/
def Obligations.TimerTickFollowsTheClock : Prop :=
  ∀ s : State,
    (TickDue s → ∃ t, timerTick s = t ∧ t = { s with dt := t.dt, st := t.st, tickRef := s.now } ∧
      t.dt.toNat = s.dt.toNat - 1 ∧ t.st.toNat = s.st.toNat - 1) ∧
    (¬TickDue s → timerTick s = s)

/-- R114, R237, R265 (e): what a step does to the timers, whatever it executes or raises: the reference always follows
the clock; ST is what the tick leaves unless the instruction is FX18, DT unless it is FX15, and then it is V[X]. -/
def Obligations.StepMovesTimersOnce : Prop :=
  ∀ s t : State, step s = .next t →
    t.tickRef = (timerTick s).tickRef ∧
    ((∀ x, ¬NextIs s (.ldToST x)) → t.st = (timerTick s).st) ∧
    ((∀ x, ¬NextIs s (.ldToDT x)) → t.dt = (timerTick s).dt) ∧
    (∀ x, NextIs s (.ldToDT x) → t.dt = getV s x) ∧
    (∀ x, NextIs s (.ldToST x) → t.st = getV s x) ∧
    (∀ x, NextIs s (.ldFromDT x) → getV t x = (timerTick s).dt)

/-- R34, R113, R296: what a step does to the model's own fields: the two inputs are drawn afresh (log entry 2), a Load is no
longer legal (log entry 10), the parameters stay (log entry 21), and the keys, which the engine never writes (R34), are as
they were. -/
def Obligations.StepLeavesKeysAndRedrawsInputs : Prop :=
  ∀ s t : State, step s = .next t →
    t.key = s.key ∧ t.params = s.params ∧ t.loadOpen = false ∧ t.draws = s.draws + 1 ∧
    t.now = Config.nextNow s.draws ∧ t.rand8 = Config.nextRand8 s.draws

/-! ### Errors -/

/-- R258 (the spec's decision D7): an instruction that raises an error writes nothing but the result. -/
def Obligations.FailingInstructionWritesNothing : Prop :=
  ∀ (i : Instr) (s t : State) (e : Err), exec i s = .next t → t.result = .err e → t = { s with result := .err e }

/-- R252: StackOverflow is raised by 2NNN, and only by it, exactly when SP = STACK_CAPACITY; nothing is pushed and the
jump is not taken. -/
def Obligations.StackOverflowExactlyOnFullCall : Prop :=
  ∀ (i : Instr) (s t : State), exec i s = .next t →
    (t.result = .err .stackOverflow ↔ (∃ addr, i = .call addr) ∧ s.sp = s.params.stackCapacity) ∧
    (t.result = .err .stackOverflow → t.stack = s.stack ∧ t.sp = s.sp ∧ t.pc = s.pc)

/-- R253: StackUnderflow is raised by 00EE, any word of it, and only by it, exactly when SP = 0; nothing is popped. -/
def Obligations.StackUnderflowExactlyOnEmptyReturn : Prop :=
  ∀ (i : Instr) (s t : State), exec i s = .next t →
    (t.result = .err .stackUnderflow ↔ (∃ x y, i = .ret x y) ∧ s.sp = 0) ∧
    (t.result = .err .stackUnderflow → t.stack = s.stack ∧ t.sp = s.sp ∧ t.pc = s.pc)

/-- R254: a step returns MemoryBoundsError in exactly five situations: at fetch when PC > 4094, in DXYN when N >= 1 and
I + N - 1 > 4095, in FX33 when I + 2 > 4095, in FX55 and FX65 when I + X > 4095. -/
def Obligations.MemoryBoundsErrorExactly : Prop :=
  ∀ s t : State, step s = .next t →
    (t.result = .err .memoryBounds ↔
      s.pc.toNat > 4094 ∨
      (∃ x y n, NextIs s (.drw x y n) ∧ n.toNat ≥ 1 ∧ s.i.toNat + n.toNat > 4096) ∨
      (∃ x, NextIs s (.ldBcd x) ∧ s.i.toNat + 2 > 4095) ∨
      (∃ x, NextIs s (.store x) ∧ s.i.toNat + x.toNat > 4095) ∨
      (∃ x, NextIs s (.load x) ∧ s.i.toNat + x.toNat > 4095))

/-- R260 (the spec's decision D8; the result field is log entry 1): no error state is kept: what the last operation
returned changes nothing of the next step. -/
def Obligations.ErrorsAreNotKept : Prop :=
  ∀ (s : State) (r : Result), step { s with result := r } = step s

/-! ### What changes what -/

/-- R20 (column "written by"), R54: in a step I changes only by ANNN, FX1E, FX29; SP only by 2NNN and 00EE; an entry of the
stack only by 2NNN; a byte of memory only by FX33 and FX55; the framebuffer only by 00E0 and DXYN. -/
def Obligations.StateChangesOnlyByItsWriters : Prop :=
  ∀ s t : State, step s = .next t →
    (t.i ≠ s.i → (∃ a, NextIs s (.ldI a)) ∨ (∃ x, NextIs s (.addI x)) ∨ (∃ x, NextIs s (.ldFont x))) ∧
    (t.sp ≠ s.sp → (∃ a, NextIs s (.call a)) ∨ (∃ x y, NextIs s (.ret x y))) ∧
    (t.stack ≠ s.stack → ∃ a, NextIs s (.call a)) ∧
    ((∃ a, memByte t a ≠ memByte s a) → (∃ x, NextIs s (.ldBcd x)) ∨ (∃ x, NextIs s (.store x))) ∧
    ((∃ k, cell t k ≠ cell s k) → (∃ x y, NextIs s (.cls x y)) ∨ (∃ x y n, NextIs s (.drw x y n)))

/-- R33, R118 (one sticky bit: the spec's decision D31): no step clears `fb_changed`, and only 00E0 and DXYN set it. -/
def Obligations.ChangedFlagIsSticky : Prop :=
  ∀ s t : State, step s = .next t →
    (s.fbChanged = true → t.fbChanged = true) ∧
    (t.fbChanged ≠ s.fbChanged → (∃ x y, NextIs s (.cls x y)) ∨ (∃ x y n, NextIs s (.drw x y n)))

/-- R22: VF is written by the six flag-writing instructions; no other instruction writes it unless it is its named
destination X, or lies in V0 to VX of FX65. -/
def Obligations.FlagChangesOnlyByFlagWriters : Prop :=
  ∀ (i : Instr) (s t : State), exec i s = .next t → getV t 0xF ≠ getV s 0xF →
    (∃ x y, i = .addReg x y ∨ i = .sub x y ∨ i = .shr x y ∨ i = .subn x y ∨ i = .shl x y) ∨
    (∃ x y n, i = .drw x y n) ∨
    (∃ k, i = .ldImm 0xF k ∨ i = .addImm 0xF k ∨ i = .rnd 0xF k) ∨
    (∃ y, i = .ldReg 0xF y ∨ i = .or 0xF y ∨ i = .and 0xF y ∨ i = .xor 0xF y) ∨
    i = .ldFromDT 0xF ∨ i = .ldKey 0xF ∨ i = .load 0xF

/-! ### Invariants -/

/-- R38, R39: the invariant holds in the reset state, and after Reset of an engine with any legal parameters (log entry 21) at
any time. -/
def Obligations.InvariantHoldsAtReset : Prop :=
  Inv State.reset ∧ ∀ (p : Params) (now0 draws : Nat), p.Legal → Inv (State.resetAt p now0 draws)

/-- R24, R25, R26, R39, R55: every step from a state of the invariant, reachable or not, ends in one: memory stays in canonical
form inside 0 to 4095, PC stays at most 0x10FE, SP at most STACK_CAPACITY, the stack keeps its STACK_CAPACITY entries, every
one at most 0x1000. -/
def Obligations.StepKeepsInvariant : Prop :=
  ∀ s t : State, Inv s → step s = .next t → Inv t

/-- R111, R112: so does every operation of the interface, with any arguments. -/
def Obligations.EveryOperationKeepsInvariant : Prop :=
  ∀ (op : Op) (s t : State), Inv s → perform op s = .next t → Inv t

/-! ### The driver's operations -/

/-- R290, R291: Reset(now) from any state: memory is zero except the font table, which holds the engine's FONT, whatever
those 80 bytes are; PC is 0x200, tick_ref is `now`. The other values (zero, empty, false) are the spec's decision D4 (log
entry 5), that Reset may be repeated its decision D28; that a Load is legal directly after it is R296's (decision D22, log
entry 10). -/
def Obligations.ResetGivesTheResetState : Prop :=
  ∀ (s : State) (now0 : Nat), ∃ t, perform (.reset now0) s = .next t ∧ t.params = s.params ∧
    (∀ k : Fin 80, memByte t (0x050 + k.val) = s.params.font[k]) ∧
    (∀ a, a < 4096 → ¬(0x050 ≤ a ∧ a ≤ 0x09F) → memByte t a = 0) ∧
    t.pc = 0x0200 ∧ t.tickRef = now0 ∧
    (∀ x, getV t x = 0) ∧ t.i = 0 ∧ t.sp = 0 ∧ t.stack = List.replicate s.params.stackCapacity 0 ∧
    t.dt = 0 ∧ t.st = 0 ∧ (∀ k, cell t k = false) ∧ t.fbChanged = false ∧ (∀ k : Fin 16, t.key[k] = false) ∧
    t.loadOpen = true

/-- R293, R294: Load copies the bytes verbatim from 0x200 and writes nothing else; an unreadable source or a program
past address 4095 gives LoadError and changes nothing. The premise `loadOpen` is R296's "directly after Reset". -/
def Obligations.LoadCopiesVerbatim : Prop :=
  ∀ (bytes : List Byte) (readable : Bool) (s : State), s.loadOpen = true →
    ((readable = false ∨ 0x200 + bytes.length > 4096) →
      perform (.load bytes readable) s = .next (Raised .loadError s)) ∧
    (readable = true → 0x200 + bytes.length ≤ 4096 →
      ∃ t, perform (.load bytes readable) s = .next t ∧
        t = { s with mem := t.mem, result := .ok, loadOpen := false } ∧
        (MemWf s.params.font s.mem → ∀ k (h : k < bytes.length), memByte t (0x200 + k) = bytes[k]) ∧
        (∀ a, ¬(0x200 ≤ a ∧ a < 0x200 + bytes.length) → memByte t a = memByte s a))

/-- R296, U1 (the spec's decision D22, log entry 10): after a Step, and after a successful Load, a Load is refused. -/
def Obligations.LoadIsLegalOnlyAfterReset : Prop :=
  ∀ (s t : State) (bytes : List Byte) (readable : Bool),
    ((∃ now r, perform (.step now r) s = .next t) ∨
      (∃ b, perform (.load b true) s = .next t ∧ t.result = .ok)) →
    perform (.load bytes readable) t = .refused .loadNotAfterReset

/-- R120, R121, R123, R29: WriteKeys sets all 16 latches, AckDisplay clears the flag, ReadFramebuffer gives the 2048
cells in index order and the flag, Tone is true while ST is nonzero; nothing else changes. -/
def Obligations.SmallOperationsOfTheInterface : Prop :=
  ∀ (s : State) (k : Vector Bool 16),
    perform (.writeKeys k) s = .next { s with key := k } ∧
    perform .ackDisplay s = .next { s with fbChanged := false } ∧
    perform .readFramebuffer s = .next s ∧ perform .tone s = .next s ∧
    (readFramebuffer s).1.length = 2048 ∧ (readFramebuffer s).2 = s.fbChanged ∧
    (∀ x y, x < 64 → (h : y < 32) → (readFramebuffer s).1[x + y * 64]? = some ((s.fb[y]).getLsbD x)) ∧
    (tone s = true ↔ s.st.toNat ≠ 0)

/-! ### Whole-machine properties of the source's section 8 -/

/-- Source property S7, R212: drawing the identical sprite at the identical place twice restores the framebuffer. VF after
the second draw is what R212 makes it: 1 exactly when some set bit of the sprite lands, unclipped, on a cell that was DARK
before the first draw. R213 (c) says of this "exactly when m is not all zero", which R212 contradicts when every such cell
was lit; R212 is followed (log entry 20). X and Y are not F, whose register the first draw overwrites. -/
def Obligations.DoubleDrawRestoresFramebuffer : Prop :=
  ∀ (x y n : Nibble) (s : State), x ≠ 0xF → y ≠ 0xF → (n = 0 ∨ s.i.toNat + n.toNat ≤ 4096) →
    ∃ t u, exec (.drw x y n) s = .next t ∧ exec (.drw x y n) t = .next u ∧ u.fb = s.fb ∧
      (getV u 0xF = 1 ↔ ∃ k, cell s k = false ∧
        spriteBit s ((getV s x).toNat % 64) ((getV s y).toNat % 32) n.toNat k = true)

/-- Source property S6, R141, R143: a call and then a return, each in a step of its own, restore PC to the address after
the call and SP to what it was. The stack has its STACK_CAPACITY entries, which the invariant says (`StepKeepsInvariant`). -/
def Obligations.CallThenReturnComesBack : Prop :=
  ∀ (s t u : State) (addr : Addr) (x y : Nibble),
    s.stack.length = s.params.stackCapacity → s.sp < s.params.stackCapacity →
    NextIs s (.call addr) → step s = .next t → NextIs t (.ret x y) → step t = .next u →
    t.pc.toNat = addr.toNat ∧ t.result = .ok ∧ u.pc = s.pc + 2 ∧ u.sp = s.sp ∧ u.result = .ok

/-- Source property S9, R234 (level detection and the lowest key: the spec's decision D16): a step of FX0A with no key
down leaves PC where it was and the registers alone; with a key down PC advances once and the register gets the lowest
key's number. -/
def Obligations.KeyWaitHoldsThenAdvances : Prop :=
  ∀ (s t : State) (x : Nibble), NextIs s (.ldKey x) → step s = .next t →
    ((∀ j : Fin 16, s.key[j] = false) → t.pc = s.pc ∧ t.v = s.v ∧ t.result = .ok) ∧
    (∀ k : Fin 16, s.key[k] = true → (∀ j : Fin 16, j < k → s.key[j] = false) →
      t.pc = s.pc + 2 ∧ (getV t x).toNat = k.val ∧ ∀ r, r ≠ x → getV t r = getV s r)

/-! ### The instructions: control flow -/

/-- R141, 00EE (X and Y ignored: decision D9; what an error leaves: decision D7). The entry popped is one of the stack's, which
the invariant says of every SP above 0 (`StepKeepsInvariant`). -/
def Obligations.ReturnPopsPc : Prop :=
  Encodes 0xF00F 0x000E (fun w => .ret (w.extractLsb' 8 4) (w.extractLsb' 4 4)) ∧
  ∀ (x y : Nibble) (s : State),
    (s.sp = 0 → exec (.ret x y) s = .next (Raised .stackUnderflow s)) ∧
    (∀ (k : Nat) (hk : k < s.stack.length), s.sp = k + 1 →
      exec (.ret x y) s = .next { s with sp := k, pc := s.stack[k], result := .ok })

/-- R142, 1NNN: any target, never checked; a jump to 0xFFF shows only in the next step, which raises MemoryBoundsError; a
jump to its own address is a step that is `OK` and comes back to it. -/
def Obligations.JumpLoadsPc : Prop :=
  Encodes 0xF000 0x1000 (fun w => .jp (w.extractLsb' 0 12)) ∧
  ∀ (addr : Addr) (s : State),
    (∃ t, exec (.jp addr) s = .next t ∧ t = { s with pc := BitVec.ofNat 16 addr.toNat, result := .ok } ∧
      (addr = 0xFFF → ∃ u, step t = .next u ∧ u.result = .err .memoryBounds)) ∧
    (NextIs s (.jp addr) → s.pc.toNat = addr.toNat → ∃ t, step s = .next t ∧ t.pc = s.pc ∧ t.result = .ok)

/-- R143, 2NNN, on an engine of any STACK_CAPACITY (what an error leaves: decision D7). -/
def Obligations.CallPushesPc : Prop :=
  Encodes 0xF000 0x2000 (fun w => .call (w.extractLsb' 0 12)) ∧
  ∀ (addr : Addr) (s : State),
    (s.sp = s.params.stackCapacity → exec (.call addr) s = .next (Raised .stackOverflow s)) ∧
    (s.sp ≠ s.params.stackCapacity → exec (.call addr) s = .next
      { s with stack := s.stack.set s.sp s.pc, sp := s.sp + 1, pc := BitVec.ofNat 16 addr.toNat, result := .ok })

/-- R144, R145, 3XNN and 4XNN: the skip adds 2 to the advanced PC, modulo 65536, when the register equals the immediate
(3XNN) and when it differs (4XNN). -/
def Obligations.SkipOnImmediate : Prop :=
  Encodes 0xF000 0x3000 (fun w => .seImm (w.extractLsb' 8 4) (w.extractLsb' 0 8)) ∧
  Encodes 0xF000 0x4000 (fun w => .sneImm (w.extractLsb' 8 4) (w.extractLsb' 0 8)) ∧
  ∀ (x : Nibble) (imm : Byte) (s : State),
    exec (.seImm x imm) s =
      .next { s with pc := if getV s x = imm then BitVec.ofNat 16 (s.pc.toNat + 2) else s.pc, result := .ok } ∧
    exec (.sneImm x imm) s =
      .next { s with pc := if getV s x = imm then s.pc else BitVec.ofNat 16 (s.pc.toNat + 2), result := .ok }

/-- R146, R147, 5XY0 and 9XY0 (N ignored: decision D11). -/
def Obligations.SkipOnRegisters : Prop :=
  Encodes 0xF000 0x5000 (fun w => .seReg (w.extractLsb' 8 4) (w.extractLsb' 4 4) (w.extractLsb' 0 4)) ∧
  Encodes 0xF000 0x9000 (fun w => .sneReg (w.extractLsb' 8 4) (w.extractLsb' 4 4) (w.extractLsb' 0 4)) ∧
  ∀ (x y n : Nibble) (s : State),
    exec (.seReg x y n) s =
      .next { s with pc := if getV s x = getV s y then BitVec.ofNat 16 (s.pc.toNat + 2) else s.pc, result := .ok } ∧
    exec (.sneReg x y n) s =
      .next { s with pc := if getV s x = getV s y then s.pc else BitVec.ofNat 16 (s.pc.toNat + 2), result := .ok }

/-- R148, BNNN: V0 always; the sum is not reduced to 12 bits, and one above 0xFFE makes the next step raise
MemoryBoundsError. -/
def Obligations.IndexedJumpAddsV0 : Prop :=
  Encodes 0xF000 0xB000 (fun w => .jpV0 (w.extractLsb' 0 12)) ∧
  ∀ (addr : Addr) (s : State), ∃ t, exec (.jpV0 addr) s = .next t ∧ t = { s with pc := t.pc, result := .ok } ∧
    t.pc.toNat = addr.toNat + (getV s 0x0).toNat ∧
    (addr.toNat + (getV s 0x0).toNat > 0xFFE → ∃ u, step t = .next u ∧ u.result = .err .memoryBounds)

/-! ### The instructions: registers and ALU -/

/-- R161, 6XNN. -/
def Obligations.LoadImmediate : Prop :=
  Encodes 0xF000 0x6000 (fun w => .ldImm (w.extractLsb' 8 4) (w.extractLsb' 0 8)) ∧
  ∀ (x : Nibble) (imm : Byte) (s : State), ∃ t, exec (.ldImm x imm) s = .next t ∧ OnlyRegs [x] s t ∧ getV t x = imm

/-- R162, 7XNN: the carry is discarded and VF is not written. -/
def Obligations.AddImmediateWithoutFlag : Prop :=
  Encodes 0xF000 0x7000 (fun w => .addImm (w.extractLsb' 8 4) (w.extractLsb' 0 8)) ∧
  ∀ (x : Nibble) (imm : Byte) (s : State), ∃ t, exec (.addImm x imm) s = .next t ∧ OnlyRegs [x] s t ∧
    (getV t x).toNat = ((getV s x).toNat + imm.toNat) % 256

/-- R163, 8XY0. -/
def Obligations.CopyRegister : Prop :=
  Encodes 0xF00F 0x8000 (fun w => .ldReg (w.extractLsb' 8 4) (w.extractLsb' 4 4)) ∧
  ∀ (x y : Nibble) (s : State), ∃ t, exec (.ldReg x y) s = .next t ∧ OnlyRegs [x] s t ∧ getV t x = getV s y

/-- R164, R165, R166, 8XY1, 8XY2 and 8XY3: bit by bit, no flag. -/
def Obligations.LogicOfRegisters : Prop :=
  Encodes 0xF00F 0x8001 (fun w => .or (w.extractLsb' 8 4) (w.extractLsb' 4 4)) ∧
  Encodes 0xF00F 0x8002 (fun w => .and (w.extractLsb' 8 4) (w.extractLsb' 4 4)) ∧
  Encodes 0xF00F 0x8003 (fun w => .xor (w.extractLsb' 8 4) (w.extractLsb' 4 4)) ∧
  ∀ (x y : Nibble) (s : State),
    (∃ t, exec (.or x y) s = .next t ∧ OnlyRegs [x] s t ∧
      ∀ b, (getV t x).getLsbD b = ((getV s x).getLsbD b || (getV s y).getLsbD b)) ∧
    (∃ t, exec (.and x y) s = .next t ∧ OnlyRegs [x] s t ∧
      ∀ b, (getV t x).getLsbD b = ((getV s x).getLsbD b && (getV s y).getLsbD b)) ∧
    (∃ t, exec (.xor x y) s = .next t ∧ OnlyRegs [x] s t ∧
      ∀ b, (getV t x).getLsbD b = ((getV s x).getLsbD b ^^ (getV s y).getLsbD b))

/-- R167, 8XY4: the sum modulo 256 into V[X], the carry into VF; with X = F the sum overwrites the carry (order of the
statements: decision D12). -/
def Obligations.AddRegistersWithCarry : Prop :=
  Encodes 0xF00F 0x8004 (fun w => .addReg (w.extractLsb' 8 4) (w.extractLsb' 4 4)) ∧
  ∀ (x y : Nibble) (s : State), ∃ t, exec (.addReg x y) s = .next t ∧ OnlyRegs [x, 0xF] s t ∧
    (getV t x).toNat = ((getV s x).toNat + (getV s y).toNat) % 256 ∧
    (x ≠ 0xF → (getV t 0xF).toNat = if (getV s x).toNat + (getV s y).toNat > 255 then 1 else 0)

/-- R168, 8XY5, with the corner cases (a) to (e) of the rule, v = old V[X], u = old V[Y], f = old VF (order of the
statements: decision D12). VF is 1 only when the minuend is strictly greater. -/
def Obligations.SubtractWithNotBorrow : Prop :=
  Encodes 0xF00F 0x8005 (fun w => .sub (w.extractLsb' 8 4) (w.extractLsb' 4 4)) ∧
  ∀ (x y : Nibble) (s : State) (v u f : Byte), v = getV s x → u = getV s y → f = getV s 0xF →
    ∃ t, exec (.sub x y) s = .next t ∧ OnlyRegs [x, 0xF] s t ∧
      (x ≠ 0xF → y ≠ 0xF → getV t x = v - u ∧ getV t 0xF = if v.toNat > u.toNat then 1 else 0) ∧
      (x = 0xF → y ≠ 0xF → getV t 0xF = (if f.toNat > u.toNat then 1 else 0) - u) ∧
      (x ≠ 0xF → y = 0xF → ∀ b, b = (if v.toNat > f.toNat then 1 else 0) → getV t 0xF = b ∧ getV t x = v - b) ∧
      (x = 0xF → y = 0xF → getV t 0xF = 0)

/-- R169, 8XY6: the register shifted, `z`, is X, and V[Y] is not read, while SHIFT_USES_VY is false (D26); with X = F the
result is 0 (order of the statements: decision D12). On an engine built with SHIFT_USES_VY, which is not this hardware, `z` is
Y: what that means is PRESUMED from G3 (U5, log entry 9). -/
def Obligations.ShiftRightByOne : Prop :=
  Encodes 0xF00F 0x8006 (fun w => .shr (w.extractLsb' 8 4) (w.extractLsb' 4 4)) ∧
  ∀ (x y z : Nibble) (s : State), z = (if s.params.shiftUsesVY = true then y else x) →
    ∃ t, exec (.shr x y) s = .next t ∧ OnlyRegs [x, 0xF] s t ∧
      (z ≠ 0xF → (getV t x).toNat = (getV s z).toNat / 2) ∧
      (z = 0xF → getV t x = 0) ∧
      (x ≠ 0xF → (getV t 0xF).toNat = (getV s z).toNat % 2)

/-- R170, 8XY7, with the corner cases (a) to (d) of the rule (order of the statements: decision D12). -/
def Obligations.ReverseSubtractWithNotBorrow : Prop :=
  Encodes 0xF00F 0x8007 (fun w => .subn (w.extractLsb' 8 4) (w.extractLsb' 4 4)) ∧
  ∀ (x y : Nibble) (s : State) (v u f : Byte), v = getV s x → u = getV s y → f = getV s 0xF →
    ∃ t, exec (.subn x y) s = .next t ∧ OnlyRegs [x, 0xF] s t ∧
      (x ≠ 0xF → y ≠ 0xF → getV t x = u - v ∧ getV t 0xF = if u.toNat > v.toNat then 1 else 0) ∧
      (x = 0xF → y ≠ 0xF → getV t 0xF = u - (if u.toNat > f.toNat then 1 else 0)) ∧
      (x ≠ 0xF → y = 0xF → ∀ b, b = (if f.toNat > v.toNat then 1 else 0) → getV t 0xF = b ∧ getV t x = b - v) ∧
      (x = 0xF → y = 0xF → getV t 0xF = 0)

/-- R171, 8XYE: the register shifted, `z`, is X, and V[Y] is not read, while SHIFT_USES_VY is false (D26); with X = F the
result is 0 or 2 (order of the statements: decision D12). On an engine built with SHIFT_USES_VY, which is not this hardware,
`z` is Y: what that means is PRESUMED from G3 (U5, log entry 9). -/
def Obligations.ShiftLeftByOne : Prop :=
  Encodes 0xF00F 0x800E (fun w => .shl (w.extractLsb' 8 4) (w.extractLsb' 4 4)) ∧
  ∀ (x y z : Nibble) (s : State), z = (if s.params.shiftUsesVY = true then y else x) →
    ∃ t, exec (.shl x y) s = .next t ∧ OnlyRegs [x, 0xF] s t ∧
      (z ≠ 0xF → (getV t x).toNat = (getV s z).toNat * 2 % 256) ∧
      (z = 0xF → getV t x = if (getV s 0xF).toNat < 0x80 then 0 else 2) ∧
      (x ≠ 0xF → (getV t 0xF).toNat = (getV s z).toNat / 128)

/-- R172, CXNN: the step's random byte, whatever it is, masked (a free input: log entry 2). -/
def Obligations.RandomByteIsMasked : Prop :=
  Encodes 0xF000 0xC000 (fun w => .rnd (w.extractLsb' 8 4) (w.extractLsb' 0 8)) ∧
  ∀ (x : Nibble) (imm : Byte) (s : State), ∃ t, exec (.rnd x imm) s = .next t ∧ OnlyRegs [x] s t ∧
    ∀ b, (getV t x).getLsbD b = (s.rand8.getLsbD b && imm.getLsbD b)

/-! ### The instructions: index register and memory -/

/-- R191, ANNN. -/
def Obligations.LoadIndex : Prop :=
  Encodes 0xF000 0xA000 (fun w => .ldI (w.extractLsb' 0 12)) ∧
  ∀ (addr : Addr) (s : State),
    exec (.ldI addr) s = .next { s with i := BitVec.ofNat 16 addr.toNat, result := .ok }

/-- R192, FX1E: modulo 65536, never masked to 12 bits, no flag, no error (decision D13). -/
def Obligations.AddRegisterToIndex : Prop :=
  Encodes 0xF0FF 0xF01E (fun w => .addI (w.extractLsb' 8 4)) ∧
  ∀ (x : Nibble) (s : State), ∃ t, exec (.addI x) s = .next t ∧ t = { s with i := t.i, result := .ok } ∧
    t.i.toNat = (s.i.toNat + (getV s x).toNat) % 65536

/-- R193, FX29: the formula on the whole byte (decision D30). -/
def Obligations.PointIndexAtGlyph : Prop :=
  Encodes 0xF0FF 0xF029 (fun w => .ldFont (w.extractLsb' 8 4)) ∧
  ∀ (x : Nibble) (s : State), ∃ t, exec (.ldFont x) s = .next t ∧ t = { s with i := t.i, result := .ok } ∧
    t.i.toNat = 0x50 + 5 * (getV s x).toNat

/-- R194, FX33: hundreds, tens, ones at I, I+1, I+2 and no other byte; above 4095 MemoryBoundsError and no byte
(decision D7). Memory is in canonical form (`StepKeepsInvariant`) where the stored bytes are read back. -/
def Obligations.StoreDecimalDigits : Prop :=
  Encodes 0xF0FF 0xF033 (fun w => .ldBcd (w.extractLsb' 8 4)) ∧
  ∀ (x : Nibble) (s : State),
    (s.i.toNat + 2 ≤ 4095 → ∃ t, exec (.ldBcd x) s = .next t ∧ OnlyBytes s.i.toNat 3 s t ∧
      (MemWf s.params.font s.mem →
        (memByte t s.i.toNat).toNat = (getV s x).toNat / 100 ∧
        (memByte t (s.i.toNat + 1)).toNat = (getV s x).toNat / 10 % 10 ∧
        (memByte t (s.i.toNat + 2)).toNat = (getV s x).toNat % 10)) ∧
    (s.i.toNat + 2 > 4095 → exec (.ldBcd x) s = .next (Raised .memoryBounds s))

/-- R195, FX55: V0 to VX at I to I+X and no other byte, I unchanged (decision D18); above 4095 MemoryBoundsError and no
byte (decision D7). Memory is in canonical form where the stored bytes are read back. -/
def Obligations.StoreRegisterBlock : Prop :=
  Encodes 0xF0FF 0xF055 (fun w => .store (w.extractLsb' 8 4)) ∧
  ∀ (x : Nibble) (s : State),
    (s.i.toNat + x.toNat ≤ 4095 → ∃ t, exec (.store x) s = .next t ∧ OnlyBytes s.i.toNat (x.toNat + 1) s t ∧
      (MemWf s.params.font s.mem → ∀ k : Nibble, k.toNat ≤ x.toNat → memByte t (s.i.toNat + k.toNat) = getV s k)) ∧
    (s.i.toNat + x.toNat > 4095 → exec (.store x) s = .next (Raised .memoryBounds s))

/-- R196, FX65: V0 to VX from I to I+X, the other registers and I unchanged (decision D18); above 4095
MemoryBoundsError and no register (decision D7). -/
def Obligations.LoadRegisterBlock : Prop :=
  Encodes 0xF0FF 0xF065 (fun w => .load (w.extractLsb' 8 4)) ∧
  ∀ (x : Nibble) (s : State),
    (s.i.toNat + x.toNat ≤ 4095 → ∃ t, exec (.load x) s = .next t ∧ t = { s with v := t.v, result := .ok } ∧
      ∀ r : Nibble, getV t r = if r.toNat ≤ x.toNat then memByte s (s.i.toNat + r.toNat) else getV s r) ∧
    (s.i.toNat + x.toNat > 4095 → exec (.load x) s = .next (Raised .memoryBounds s))

/-! ### The instructions: display -/

/-- R211, 00E0: all cells 0 and the flag set whatever the screen held (X and Y ignored: decision D9). -/
def Obligations.ClearScreen : Prop :=
  Encodes 0xF00F 0x0000 (fun w => .cls (w.extractLsb' 8 4) (w.extractLsb' 4 4)) ∧
  ∀ (x y : Nibble) (s : State), ∃ t, exec (.cls x y) s = .next t ∧
    t = { s with fb := t.fb, fbChanged := true, result := .ok } ∧ ∀ k, cell t k = false

/-- R212, R213 (a), (b), DXYN: the cells of `spriteBit` are toggled and no other; VF is 1 exactly when one of them was
lit; the flag is set exactly when there is one, else left; N = 0 is a draw of no row; the range of all N bytes is
checked first, and then nothing is written (bottom edge, order of the check, N = 0: decision D17; D7). -/
def Obligations.DrawSprite : Prop :=
  Encodes 0xF000 0xD000 (fun w => .drw (w.extractLsb' 8 4) (w.extractLsb' 4 4) (w.extractLsb' 0 4)) ∧
  ∀ (x y n : Nibble) (s : State) (m : Nat → Bool),
    m = spriteBit s ((getV s x).toNat % 64) ((getV s y).toNat % 32) n.toNat →
    ((n.toNat = 0 ∨ s.i.toNat + n.toNat ≤ 4096) → ∃ t, exec (.drw x y n) s = .next t ∧
      t = { s with v := t.v, fb := t.fb, fbChanged := t.fbChanged, result := .ok } ∧
      (∀ r, r ≠ 0xF → getV t r = getV s r) ∧
      (∀ k, cell t k = (cell s k ^^ m k)) ∧
      ((∃ k, m k = true ∧ cell s k = true) → getV t 0xF = 1) ∧
      ((∀ k, m k = true → cell s k = false) → getV t 0xF = 0) ∧
      (t.fbChanged = true ↔ s.fbChanged = true ∨ ∃ k, m k = true)) ∧
    (n.toNat ≥ 1 → s.i.toNat + n.toNat > 4096 → exec (.drw x y n) s = .next (Raised .memoryBounds s))

/-! ### The instructions: keys and timers -/

/-- R231, R232, EX9E and EXA1: the key is V[X] mod 16 (decision D15). -/
def Obligations.SkipOnKey : Prop :=
  Encodes 0xF0FF 0xE09E (fun w => .skp (w.extractLsb' 8 4)) ∧
  Encodes 0xF0FF 0xE0A1 (fun w => .sknp (w.extractLsb' 8 4)) ∧
  ∀ (x : Nibble) (s : State) (k : Fin 16), (getV s x).toNat % 16 = k.val →
    exec (.skp x) s =
      .next { s with pc := if s.key[k] = true then BitVec.ofNat 16 (s.pc.toNat + 2) else s.pc, result := .ok } ∧
    exec (.sknp x) s =
      .next { s with pc := if s.key[k] = true then s.pc else BitVec.ofNat 16 (s.pc.toNat + 2), result := .ok }

/-- R233, FX07. -/
def Obligations.ReadDelayTimer : Prop :=
  Encodes 0xF0FF 0xF007 (fun w => .ldFromDT (w.extractLsb' 8 4)) ∧
  ∀ (x : Nibble) (s : State), ∃ t, exec (.ldFromDT x) s = .next t ∧ OnlyRegs [x] s t ∧ getV t x = s.dt

/-- R234, FX0A (level detection, lowest key: decision D16). -/
def Obligations.WaitForKey : Prop :=
  Encodes 0xF0FF 0xF00A (fun w => .ldKey (w.extractLsb' 8 4)) ∧
  ∀ (x : Nibble) (s : State),
    (∀ k : Fin 16, s.key[k] = true → (∀ j : Fin 16, j < k → s.key[j] = false) →
      ∃ t, exec (.ldKey x) s = .next t ∧ OnlyRegs [x] s t ∧ (getV t x).toNat = k.val) ∧
    ((∀ j : Fin 16, s.key[j] = false) → exec (.ldKey x) s = .next { s with pc := s.pc - 2, result := .ok })

/-- R235, FX15: `tick_ref` is not touched. -/
def Obligations.SetDelayTimer : Prop :=
  Encodes 0xF0FF 0xF015 (fun w => .ldToDT (w.extractLsb' 8 4)) ∧
  ∀ (x : Nibble) (s : State), exec (.ldToDT x) s = .next { s with dt := getV s x, result := .ok }

/-- R236, FX18; the tone is on from the end of it exactly when V[X] is not 0. -/
def Obligations.SetSoundTimer : Prop :=
  Encodes 0xF0FF 0xF018 (fun w => .ldToST (w.extractLsb' 8 4)) ∧
  ∀ (x : Nibble) (s : State), ∃ t, exec (.ldToST x) s = .next t ∧
    t = { s with st := getV s x, result := .ok } ∧ (tone t = true ↔ getV s x ≠ 0)

/-! ### The parameters -/

/-- R5: what an engine was built with (the font bytes, the stack capacity, the shift convention) is fixed: no operation of the
interface changes it. That the state carries it is the model's choice (log entry 21). -/
def Obligations.EveryOperationKeepsTheParameters : Prop :=
  ∀ (op : Op) (s t : State), perform op s = .next t → t.params = s.params
end

