-- ==== Sys2Proof/Laws/State.lean ====
section
/-!
SUPPORT. What each update of the state does to each field: one lemma per field per update, true by unfolding, so that
no later proof unfolds a record update.
-/

namespace Sys2Proof.Machine

section
variable (s : State) (x : Nibble) (b : Byte)
@[simp] theorem setV_v : (setV s x b).v = s.v.set x.toNat b x.isLt := rfl
@[simp] theorem setV_i : (setV s x b).i = s.i := rfl
@[simp] theorem setV_pc : (setV s x b).pc = s.pc := rfl
@[simp] theorem setV_sp : (setV s x b).sp = s.sp := rfl
@[simp] theorem setV_stack : (setV s x b).stack = s.stack := rfl
@[simp] theorem setV_dt : (setV s x b).dt = s.dt := rfl
@[simp] theorem setV_st : (setV s x b).st = s.st := rfl
@[simp] theorem setV_mem : (setV s x b).mem = s.mem := rfl
@[simp] theorem setV_fb : (setV s x b).fb = s.fb := rfl
@[simp] theorem setV_fbChanged : (setV s x b).fbChanged = s.fbChanged := rfl
@[simp] theorem setV_key : (setV s x b).key = s.key := rfl
@[simp] theorem setV_tickRef : (setV s x b).tickRef = s.tickRef := rfl
@[simp] theorem setV_result : (setV s x b).result = s.result := rfl
@[simp] theorem setV_loadOpen : (setV s x b).loadOpen = s.loadOpen := rfl
@[simp] theorem setV_now : (setV s x b).now = s.now := rfl
@[simp] theorem setV_rand8 : (setV s x b).rand8 = s.rand8 := rfl
@[simp] theorem setV_draws : (setV s x b).draws = s.draws := rfl
@[simp] theorem setV_params : (setV s x b).params = s.params := rfl
end

section
variable (s : State) (a : Word)
@[simp] theorem setPc_v : (setPc s a).v = s.v := rfl
@[simp] theorem setPc_i : (setPc s a).i = s.i := rfl
@[simp] theorem setPc_pc : (setPc s a).pc = a := rfl
@[simp] theorem setPc_sp : (setPc s a).sp = s.sp := rfl
@[simp] theorem setPc_stack : (setPc s a).stack = s.stack := rfl
@[simp] theorem setPc_dt : (setPc s a).dt = s.dt := rfl
@[simp] theorem setPc_st : (setPc s a).st = s.st := rfl
@[simp] theorem setPc_mem : (setPc s a).mem = s.mem := rfl
@[simp] theorem setPc_fb : (setPc s a).fb = s.fb := rfl
@[simp] theorem setPc_fbChanged : (setPc s a).fbChanged = s.fbChanged := rfl
@[simp] theorem setPc_key : (setPc s a).key = s.key := rfl
@[simp] theorem setPc_tickRef : (setPc s a).tickRef = s.tickRef := rfl
@[simp] theorem setPc_result : (setPc s a).result = s.result := rfl
@[simp] theorem setPc_loadOpen : (setPc s a).loadOpen = s.loadOpen := rfl
@[simp] theorem setPc_now : (setPc s a).now = s.now := rfl
@[simp] theorem setPc_rand8 : (setPc s a).rand8 = s.rand8 := rfl
@[simp] theorem setPc_draws : (setPc s a).draws = s.draws := rfl
@[simp] theorem setPc_params : (setPc s a).params = s.params := rfl
end

section
variable (s : State) (a : Word)
@[simp] theorem setI_v : (setI s a).v = s.v := rfl
@[simp] theorem setI_i : (setI s a).i = a := rfl
@[simp] theorem setI_pc : (setI s a).pc = s.pc := rfl
@[simp] theorem setI_sp : (setI s a).sp = s.sp := rfl
@[simp] theorem setI_stack : (setI s a).stack = s.stack := rfl
@[simp] theorem setI_dt : (setI s a).dt = s.dt := rfl
@[simp] theorem setI_st : (setI s a).st = s.st := rfl
@[simp] theorem setI_mem : (setI s a).mem = s.mem := rfl
@[simp] theorem setI_fb : (setI s a).fb = s.fb := rfl
@[simp] theorem setI_fbChanged : (setI s a).fbChanged = s.fbChanged := rfl
@[simp] theorem setI_key : (setI s a).key = s.key := rfl
@[simp] theorem setI_tickRef : (setI s a).tickRef = s.tickRef := rfl
@[simp] theorem setI_result : (setI s a).result = s.result := rfl
@[simp] theorem setI_loadOpen : (setI s a).loadOpen = s.loadOpen := rfl
@[simp] theorem setI_now : (setI s a).now = s.now := rfl
@[simp] theorem setI_rand8 : (setI s a).rand8 = s.rand8 := rfl
@[simp] theorem setI_draws : (setI s a).draws = s.draws := rfl
@[simp] theorem setI_params : (setI s a).params = s.params := rfl
end

section
variable (c : Bool) (s : State)
@[simp] theorem skipIf_v : (skipIf c s).v = s.v := rfl
@[simp] theorem skipIf_i : (skipIf c s).i = s.i := rfl
@[simp] theorem skipIf_pc : (skipIf c s).pc = if c then s.pc + 2 else s.pc := rfl
@[simp] theorem skipIf_sp : (skipIf c s).sp = s.sp := rfl
@[simp] theorem skipIf_stack : (skipIf c s).stack = s.stack := rfl
@[simp] theorem skipIf_dt : (skipIf c s).dt = s.dt := rfl
@[simp] theorem skipIf_st : (skipIf c s).st = s.st := rfl
@[simp] theorem skipIf_mem : (skipIf c s).mem = s.mem := rfl
@[simp] theorem skipIf_fb : (skipIf c s).fb = s.fb := rfl
@[simp] theorem skipIf_fbChanged : (skipIf c s).fbChanged = s.fbChanged := rfl
@[simp] theorem skipIf_key : (skipIf c s).key = s.key := rfl
@[simp] theorem skipIf_tickRef : (skipIf c s).tickRef = s.tickRef := rfl
@[simp] theorem skipIf_result : (skipIf c s).result = s.result := rfl
@[simp] theorem skipIf_loadOpen : (skipIf c s).loadOpen = s.loadOpen := rfl
@[simp] theorem skipIf_now : (skipIf c s).now = s.now := rfl
@[simp] theorem skipIf_rand8 : (skipIf c s).rand8 = s.rand8 := rfl
@[simp] theorem skipIf_draws : (skipIf c s).draws = s.draws := rfl
@[simp] theorem skipIf_params : (skipIf c s).params = s.params := rfl
end

section
variable (s : State) (a : Nat) (xs : List Byte)
@[simp] theorem storeBytes_v : (storeBytes s a xs).v = s.v := rfl
@[simp] theorem storeBytes_i : (storeBytes s a xs).i = s.i := rfl
@[simp] theorem storeBytes_pc : (storeBytes s a xs).pc = s.pc := rfl
@[simp] theorem storeBytes_sp : (storeBytes s a xs).sp = s.sp := rfl
@[simp] theorem storeBytes_stack : (storeBytes s a xs).stack = s.stack := rfl
@[simp] theorem storeBytes_dt : (storeBytes s a xs).dt = s.dt := rfl
@[simp] theorem storeBytes_st : (storeBytes s a xs).st = s.st := rfl
@[simp] theorem storeBytes_mem : (storeBytes s a xs).mem = pokeAll s.params.font s.mem a xs := rfl
@[simp] theorem storeBytes_fb : (storeBytes s a xs).fb = s.fb := rfl
@[simp] theorem storeBytes_fbChanged : (storeBytes s a xs).fbChanged = s.fbChanged := rfl
@[simp] theorem storeBytes_key : (storeBytes s a xs).key = s.key := rfl
@[simp] theorem storeBytes_tickRef : (storeBytes s a xs).tickRef = s.tickRef := rfl
@[simp] theorem storeBytes_result : (storeBytes s a xs).result = s.result := rfl
@[simp] theorem storeBytes_loadOpen : (storeBytes s a xs).loadOpen = s.loadOpen := rfl
@[simp] theorem storeBytes_now : (storeBytes s a xs).now = s.now := rfl
@[simp] theorem storeBytes_rand8 : (storeBytes s a xs).rand8 = s.rand8 := rfl
@[simp] theorem storeBytes_draws : (storeBytes s a xs).draws = s.draws := rfl
@[simp] theorem storeBytes_params : (storeBytes s a xs).params = s.params := rfl
end

section
variable (s : State)
@[simp] theorem clearDisplay_v : (clearDisplay s).v = s.v := rfl
@[simp] theorem clearDisplay_i : (clearDisplay s).i = s.i := rfl
@[simp] theorem clearDisplay_pc : (clearDisplay s).pc = s.pc := rfl
@[simp] theorem clearDisplay_sp : (clearDisplay s).sp = s.sp := rfl
@[simp] theorem clearDisplay_stack : (clearDisplay s).stack = s.stack := rfl
@[simp] theorem clearDisplay_dt : (clearDisplay s).dt = s.dt := rfl
@[simp] theorem clearDisplay_st : (clearDisplay s).st = s.st := rfl
@[simp] theorem clearDisplay_mem : (clearDisplay s).mem = s.mem := rfl
@[simp] theorem clearDisplay_fb : (clearDisplay s).fb = Vector.replicate 32 0#64 := rfl
@[simp] theorem clearDisplay_fbChanged : (clearDisplay s).fbChanged = true := rfl
@[simp] theorem clearDisplay_key : (clearDisplay s).key = s.key := rfl
@[simp] theorem clearDisplay_tickRef : (clearDisplay s).tickRef = s.tickRef := rfl
@[simp] theorem clearDisplay_result : (clearDisplay s).result = s.result := rfl
@[simp] theorem clearDisplay_loadOpen : (clearDisplay s).loadOpen = s.loadOpen := rfl
@[simp] theorem clearDisplay_now : (clearDisplay s).now = s.now := rfl
@[simp] theorem clearDisplay_rand8 : (clearDisplay s).rand8 = s.rand8 := rfl
@[simp] theorem clearDisplay_draws : (clearDisplay s).draws = s.draws := rfl
@[simp] theorem clearDisplay_params : (clearDisplay s).params = s.params := rfl
end

section
variable (s : State)
@[simp] theorem timerTick_v : (timerTick s).v = s.v := rfl
@[simp] theorem timerTick_i : (timerTick s).i = s.i := rfl
@[simp] theorem timerTick_pc : (timerTick s).pc = s.pc := rfl
@[simp] theorem timerTick_sp : (timerTick s).sp = s.sp := rfl
@[simp] theorem timerTick_stack : (timerTick s).stack = s.stack := rfl
@[simp] theorem timerTick_dt : (timerTick s).dt = countDown (tickDue s) s.dt := rfl
@[simp] theorem timerTick_st : (timerTick s).st = countDown (tickDue s) s.st := rfl
@[simp] theorem timerTick_mem : (timerTick s).mem = s.mem := rfl
@[simp] theorem timerTick_fb : (timerTick s).fb = s.fb := rfl
@[simp] theorem timerTick_fbChanged : (timerTick s).fbChanged = s.fbChanged := rfl
@[simp] theorem timerTick_key : (timerTick s).key = s.key := rfl
@[simp] theorem timerTick_tickRef : (timerTick s).tickRef = if tickDue s then s.now else s.tickRef := rfl
@[simp] theorem timerTick_result : (timerTick s).result = s.result := rfl
@[simp] theorem timerTick_loadOpen : (timerTick s).loadOpen = s.loadOpen := rfl
@[simp] theorem timerTick_now : (timerTick s).now = s.now := rfl
@[simp] theorem timerTick_rand8 : (timerTick s).rand8 = s.rand8 := rfl
@[simp] theorem timerTick_draws : (timerTick s).draws = s.draws := rfl
@[simp] theorem timerTick_params : (timerTick s).params = s.params := rfl
end

section
variable (s : State)
@[simp] theorem advancePc_v : (advancePc s).v = s.v := rfl
@[simp] theorem advancePc_i : (advancePc s).i = s.i := rfl
@[simp] theorem advancePc_pc : (advancePc s).pc = s.pc + 2 := rfl
@[simp] theorem advancePc_sp : (advancePc s).sp = s.sp := rfl
@[simp] theorem advancePc_stack : (advancePc s).stack = s.stack := rfl
@[simp] theorem advancePc_dt : (advancePc s).dt = s.dt := rfl
@[simp] theorem advancePc_st : (advancePc s).st = s.st := rfl
@[simp] theorem advancePc_mem : (advancePc s).mem = s.mem := rfl
@[simp] theorem advancePc_fb : (advancePc s).fb = s.fb := rfl
@[simp] theorem advancePc_fbChanged : (advancePc s).fbChanged = s.fbChanged := rfl
@[simp] theorem advancePc_key : (advancePc s).key = s.key := rfl
@[simp] theorem advancePc_tickRef : (advancePc s).tickRef = s.tickRef := rfl
@[simp] theorem advancePc_result : (advancePc s).result = s.result := rfl
@[simp] theorem advancePc_loadOpen : (advancePc s).loadOpen = s.loadOpen := rfl
@[simp] theorem advancePc_now : (advancePc s).now = s.now := rfl
@[simp] theorem advancePc_rand8 : (advancePc s).rand8 = s.rand8 := rfl
@[simp] theorem advancePc_draws : (advancePc s).draws = s.draws := rfl
@[simp] theorem advancePc_params : (advancePc s).params = s.params := rfl
end

section
variable (s : State)
@[simp] theorem endStep_v : (endStep s).v = s.v := rfl
@[simp] theorem endStep_i : (endStep s).i = s.i := rfl
@[simp] theorem endStep_pc : (endStep s).pc = s.pc := rfl
@[simp] theorem endStep_sp : (endStep s).sp = s.sp := rfl
@[simp] theorem endStep_stack : (endStep s).stack = s.stack := rfl
@[simp] theorem endStep_dt : (endStep s).dt = s.dt := rfl
@[simp] theorem endStep_st : (endStep s).st = s.st := rfl
@[simp] theorem endStep_mem : (endStep s).mem = s.mem := rfl
@[simp] theorem endStep_fb : (endStep s).fb = s.fb := rfl
@[simp] theorem endStep_fbChanged : (endStep s).fbChanged = s.fbChanged := rfl
@[simp] theorem endStep_key : (endStep s).key = s.key := rfl
@[simp] theorem endStep_tickRef : (endStep s).tickRef = s.tickRef := rfl
@[simp] theorem endStep_result : (endStep s).result = s.result := rfl
@[simp] theorem endStep_loadOpen : (endStep s).loadOpen = false := rfl
@[simp] theorem endStep_now : (endStep s).now = Config.nextNow s.draws := rfl
@[simp] theorem endStep_rand8 : (endStep s).rand8 = Config.nextRand8 s.draws := rfl
@[simp] theorem endStep_draws : (endStep s).draws = s.draws + 1 := rfl
@[simp] theorem endStep_params : (endStep s).params = s.params := rfl
end

section
variable (now : Nat) (rand8 : Byte) (s : State)
@[simp] theorem withInputs_v : (withInputs now rand8 s).v = s.v := rfl
@[simp] theorem withInputs_i : (withInputs now rand8 s).i = s.i := rfl
@[simp] theorem withInputs_pc : (withInputs now rand8 s).pc = s.pc := rfl
@[simp] theorem withInputs_sp : (withInputs now rand8 s).sp = s.sp := rfl
@[simp] theorem withInputs_stack : (withInputs now rand8 s).stack = s.stack := rfl
@[simp] theorem withInputs_dt : (withInputs now rand8 s).dt = s.dt := rfl
@[simp] theorem withInputs_st : (withInputs now rand8 s).st = s.st := rfl
@[simp] theorem withInputs_mem : (withInputs now rand8 s).mem = s.mem := rfl
@[simp] theorem withInputs_fb : (withInputs now rand8 s).fb = s.fb := rfl
@[simp] theorem withInputs_fbChanged : (withInputs now rand8 s).fbChanged = s.fbChanged := rfl
@[simp] theorem withInputs_key : (withInputs now rand8 s).key = s.key := rfl
@[simp] theorem withInputs_tickRef : (withInputs now rand8 s).tickRef = s.tickRef := rfl
@[simp] theorem withInputs_result : (withInputs now rand8 s).result = s.result := rfl
@[simp] theorem withInputs_loadOpen : (withInputs now rand8 s).loadOpen = s.loadOpen := rfl
@[simp] theorem withInputs_now : (withInputs now rand8 s).now = now := rfl
@[simp] theorem withInputs_rand8 : (withInputs now rand8 s).rand8 = rand8 := rfl
@[simp] theorem withInputs_draws : (withInputs now rand8 s).draws = s.draws := rfl
@[simp] theorem withInputs_params : (withInputs now rand8 s).params = s.params := rfl
end

section
variable (k : Vector Bool 16) (s : State)
@[simp] theorem writeKeys_v : (writeKeys k s).v = s.v := rfl
@[simp] theorem writeKeys_i : (writeKeys k s).i = s.i := rfl
@[simp] theorem writeKeys_pc : (writeKeys k s).pc = s.pc := rfl
@[simp] theorem writeKeys_sp : (writeKeys k s).sp = s.sp := rfl
@[simp] theorem writeKeys_stack : (writeKeys k s).stack = s.stack := rfl
@[simp] theorem writeKeys_dt : (writeKeys k s).dt = s.dt := rfl
@[simp] theorem writeKeys_st : (writeKeys k s).st = s.st := rfl
@[simp] theorem writeKeys_mem : (writeKeys k s).mem = s.mem := rfl
@[simp] theorem writeKeys_fb : (writeKeys k s).fb = s.fb := rfl
@[simp] theorem writeKeys_fbChanged : (writeKeys k s).fbChanged = s.fbChanged := rfl
@[simp] theorem writeKeys_key : (writeKeys k s).key = k := rfl
@[simp] theorem writeKeys_tickRef : (writeKeys k s).tickRef = s.tickRef := rfl
@[simp] theorem writeKeys_result : (writeKeys k s).result = s.result := rfl
@[simp] theorem writeKeys_loadOpen : (writeKeys k s).loadOpen = s.loadOpen := rfl
@[simp] theorem writeKeys_now : (writeKeys k s).now = s.now := rfl
@[simp] theorem writeKeys_rand8 : (writeKeys k s).rand8 = s.rand8 := rfl
@[simp] theorem writeKeys_draws : (writeKeys k s).draws = s.draws := rfl
@[simp] theorem writeKeys_params : (writeKeys k s).params = s.params := rfl
end

section
variable (s : State)
@[simp] theorem ackDisplay_v : (ackDisplay s).v = s.v := rfl
@[simp] theorem ackDisplay_i : (ackDisplay s).i = s.i := rfl
@[simp] theorem ackDisplay_pc : (ackDisplay s).pc = s.pc := rfl
@[simp] theorem ackDisplay_sp : (ackDisplay s).sp = s.sp := rfl
@[simp] theorem ackDisplay_stack : (ackDisplay s).stack = s.stack := rfl
@[simp] theorem ackDisplay_dt : (ackDisplay s).dt = s.dt := rfl
@[simp] theorem ackDisplay_st : (ackDisplay s).st = s.st := rfl
@[simp] theorem ackDisplay_mem : (ackDisplay s).mem = s.mem := rfl
@[simp] theorem ackDisplay_fb : (ackDisplay s).fb = s.fb := rfl
@[simp] theorem ackDisplay_fbChanged : (ackDisplay s).fbChanged = false := rfl
@[simp] theorem ackDisplay_key : (ackDisplay s).key = s.key := rfl
@[simp] theorem ackDisplay_tickRef : (ackDisplay s).tickRef = s.tickRef := rfl
@[simp] theorem ackDisplay_result : (ackDisplay s).result = s.result := rfl
@[simp] theorem ackDisplay_loadOpen : (ackDisplay s).loadOpen = s.loadOpen := rfl
@[simp] theorem ackDisplay_now : (ackDisplay s).now = s.now := rfl
@[simp] theorem ackDisplay_rand8 : (ackDisplay s).rand8 = s.rand8 := rfl
@[simp] theorem ackDisplay_draws : (ackDisplay s).draws = s.draws := rfl
@[simp] theorem ackDisplay_params : (ackDisplay s).params = s.params := rfl
end

/-- Reading a register after writing one. -/
theorem getV_setV (s : State) (x y : Nibble) (b : Byte) :
    getV (setV s x b) y = if x = y then b else getV s y := by
  have h : x.toNat = y.toNat ↔ x = y := BitVec.toNat_inj
  simp [getV, Vector.getElem_set, h]

@[simp] theorem getV_setV_self (s : State) (x : Nibble) (b : Byte) : getV (setV s x b) x = b := by
  simp [getV_setV]

theorem getV_setV_ne (s : State) {x y : Nibble} (b : Byte) (h : x ≠ y) : getV (setV s x b) y = getV s y := by
  simp [getV_setV, h]

/-- A byte of memory is read from the memory and the parameters alone. -/
theorem memByte_congr {s t : State} (h : t.mem = s.mem) (hp : t.params = s.params) (a : Nat) :
    memByte t a = memByte s a := by simp [memByte, h, hp]

/-- A register is read from the register file alone. -/
theorem getV_congr {s t : State} (h : t.v = s.v) (x : Nibble) : getV t x = getV s x := by simp [getV, h]

/-- Writing a register writes nothing else. -/
theorem setV_eq (s : State) (x : Nibble) (b : Byte) : setV s x b = { s with v := (setV s x b).v } := rfl

end Sys2Proof.Machine
end

