-- ==== Sys2Proof/Laws/Decode.lean ====
section
/-!
SUPPORT. The bits and fields of the words the encoder builds, how a word is put together from its fields, and how a
mask and a value of the opcode map (R92) fix the fields that decoding dispatches on.
-/

namespace Sys2Proof

/-! ### Bits of a built word -/

theorem getLsbD_wordOfNibbles (g x y n : Nibble) (i : Nat) : (wordOfNibbles g x y n).getLsbD i =
    if i < 4 then n.getLsbD i else if i < 8 then y.getLsbD (i - 4)
    else if i < 12 then x.getLsbD (i - 8) else g.getLsbD (i - 12) := by
  have h : (wordOfNibbles g x y n).getLsbD i = BitVec.getLsbD (w := 4 + 4 + 4 + 4) (g ++ x ++ y ++ n) i := rfl
  rw [h, BitVec.getLsbD_append, BitVec.getLsbD_append, BitVec.getLsbD_append]
  split
  · rfl
  · split
    · rw [if_pos (by omega)]
    · split
      · rw [if_neg (by omega), if_pos (by omega)]; congr 1
      · rw [if_neg (by omega), if_neg (by omega)]; congr 1

theorem getLsbD_wordOfImm (g x : Nibble) (k : Byte) (i : Nat) : (wordOfImm g x k).getLsbD i =
    if i < 8 then k.getLsbD i else if i < 12 then x.getLsbD (i - 8) else g.getLsbD (i - 12) := by
  have h : (wordOfImm g x k).getLsbD i = BitVec.getLsbD (w := 4 + 4 + 8) (g ++ x ++ k) i := rfl
  rw [h, BitVec.getLsbD_append, BitVec.getLsbD_append]
  split
  · rfl
  · split
    · rw [if_pos (by omega)]
    · rw [if_neg (by omega)]; congr 1

theorem getLsbD_wordOfAddr (g : Nibble) (a : Addr) (i : Nat) : (wordOfAddr g a).getLsbD i =
    if i < 12 then a.getLsbD i else g.getLsbD (i - 12) := by
  have h : (wordOfAddr g a).getLsbD i = BitVec.getLsbD (w := 4 + 12) (g ++ a) i := rfl
  rw [h, BitVec.getLsbD_append]

/-! ### Fields of a built word -/

section
variable (g x y n : Nibble) (a : Addr) (k : Byte)

@[simp] theorem fieldGroup_wordOfNibbles : fieldGroup (wordOfNibbles g x y n) = g := by
  refine BitVec.eq_of_getLsbD_eq fun i hi => ?_
  rw [fieldGroup, BitVec.getLsbD_extractLsb', getLsbD_wordOfNibbles]
  grind

@[simp] theorem fieldX_wordOfNibbles : fieldX (wordOfNibbles g x y n) = x := by
  refine BitVec.eq_of_getLsbD_eq fun i hi => ?_
  rw [fieldX, BitVec.getLsbD_extractLsb', getLsbD_wordOfNibbles]
  grind

@[simp] theorem fieldY_wordOfNibbles : fieldY (wordOfNibbles g x y n) = y := by
  refine BitVec.eq_of_getLsbD_eq fun i hi => ?_
  rw [fieldY, BitVec.getLsbD_extractLsb', getLsbD_wordOfNibbles]
  grind

@[simp] theorem fieldN_wordOfNibbles : fieldN (wordOfNibbles g x y n) = n := by
  refine BitVec.eq_of_getLsbD_eq fun i hi => ?_
  rw [fieldN, BitVec.getLsbD_extractLsb', getLsbD_wordOfNibbles]
  grind

@[simp] theorem fieldGroup_wordOfImm : fieldGroup (wordOfImm g x k) = g := by
  refine BitVec.eq_of_getLsbD_eq fun i hi => ?_
  rw [fieldGroup, BitVec.getLsbD_extractLsb', getLsbD_wordOfImm]
  grind

@[simp] theorem fieldX_wordOfImm : fieldX (wordOfImm g x k) = x := by
  refine BitVec.eq_of_getLsbD_eq fun i hi => ?_
  rw [fieldX, BitVec.getLsbD_extractLsb', getLsbD_wordOfImm]
  grind

@[simp] theorem fieldImm_wordOfImm : fieldImm (wordOfImm g x k) = k := by
  refine BitVec.eq_of_getLsbD_eq fun i hi => ?_
  rw [fieldImm, BitVec.getLsbD_extractLsb', getLsbD_wordOfImm]
  grind

@[simp] theorem fieldGroup_wordOfAddr : fieldGroup (wordOfAddr g a) = g := by
  refine BitVec.eq_of_getLsbD_eq fun i hi => ?_
  rw [fieldGroup, BitVec.getLsbD_extractLsb', getLsbD_wordOfAddr]
  grind

@[simp] theorem fieldAddr_wordOfAddr : fieldAddr (wordOfAddr g a) = a := by
  refine BitVec.eq_of_getLsbD_eq fun i hi => ?_
  rw [fieldAddr, BitVec.getLsbD_extractLsb', getLsbD_wordOfAddr]
  grind

end

/-! ### A word from its fields -/

section
variable (w : Word)

theorem wordOfNibbles_fields : wordOfNibbles (fieldGroup w) (fieldX w) (fieldY w) (fieldN w) = w := by
  refine BitVec.eq_of_getLsbD_eq fun i hi => ?_
  rw [getLsbD_wordOfNibbles]
  simp only [fieldGroup, fieldX, fieldY, fieldN, BitVec.getLsbD_extractLsb']
  repeat' split
  all_goals grind

theorem wordOfImm_fields : wordOfImm (fieldGroup w) (fieldX w) (fieldImm w) = w := by
  refine BitVec.eq_of_getLsbD_eq fun i hi => ?_
  rw [getLsbD_wordOfImm]
  simp only [fieldGroup, fieldX, fieldImm, BitVec.getLsbD_extractLsb']
  repeat' split
  all_goals grind

theorem wordOfAddr_fields : wordOfAddr (fieldGroup w) (fieldAddr w) = w := by
  refine BitVec.eq_of_getLsbD_eq fun i hi => ?_
  rw [getLsbD_wordOfAddr]
  simp only [fieldGroup, fieldAddr, BitVec.getLsbD_extractLsb']
  repeat' split
  all_goals grind

/-- The two bytes of a word, joined again (R80). -/
theorem joinBytes_split : joinBytes (w.extractLsb' 8 8) (w.extractLsb' 0 8) = w := by
  refine BitVec.eq_of_getLsbD_eq fun i hi => ?_
  have h : (joinBytes (w.extractLsb' 8 8) (w.extractLsb' 0 8)).getLsbD i =
      BitVec.getLsbD (w := 8 + 8) (w.extractLsb' 8 8 ++ w.extractLsb' 0 8) i := rfl
  rw [h, BitVec.getLsbD_append]
  simp only [BitVec.getLsbD_extractLsb']
  split
  all_goals grind
end

/-! ### Masks (R92) -/

section
variable {w m v : Word}

/-- A mask that covers the group fixes it. -/
theorem fieldGroup_of_mask (h : w &&& m = v) (hm : fieldGroup m = 0xF#4) : fieldGroup w = fieldGroup v := by
  have : fieldGroup (w &&& m) = fieldGroup w &&& fieldGroup m := BitVec.extractLsb'_and
  rw [← h, this, hm]; exact (BitVec.and_allOnes).symm

/-- A mask that covers N fixes it. -/
theorem fieldN_of_mask (h : w &&& m = v) (hm : fieldN m = 0xF#4) : fieldN w = fieldN v := by
  have : fieldN (w &&& m) = fieldN w &&& fieldN m := BitVec.extractLsb'_and
  rw [← h, this, hm]; exact (BitVec.and_allOnes).symm

/-- A mask that covers the low byte fixes it. -/
theorem fieldImm_of_mask (h : w &&& m = v) (hm : fieldImm m = 0xFF#8) : fieldImm w = fieldImm v := by
  have : fieldImm (w &&& m) = fieldImm w &&& fieldImm m := BitVec.extractLsb'_and
  rw [← h, this, hm]; exact (BitVec.and_allOnes).symm
end

/-! ### Two bytes -/

@[simp] theorem decode_splitBytes (w : Word) (rest : List Byte) :
    decode (splitBytes w ++ rest) = (decodeWord w).map (·, rest) := by
  simp only [splitBytes, List.cons_append, List.nil_append, decode, joinBytes_split]

end Sys2Proof
end

