-- ==== Sys2Proof/Laws/Memory.lean ====
section
/-!
SUPPORT. The laws of memory: a read after a write, and that every operation keeps the canonical form.
-/

namespace Sys2Proof.Machine

variable {font : Vector Byte Config.fontSize}

/-! ### One byte -/

@[simp] theorem peek_nil (a : Nat) : peek font [] a = resetByte font a := rfl

theorem peek_cons (b : Nat) (w : Byte) (m : List Host.Cell) (a : Nat) :
    peek font ((b, w) :: m) a = if b = a then w else peek font m a := rfl

/-- Below every listed address memory reads as after Reset. -/
theorem peek_of_lt {m : List Host.Cell} {a : Nat} (h : ∀ c ∈ m, a < c.1) : peek font m a = resetByte font a := by
  induction m with
  | nil => rfl
  | cons c m ih =>
    obtain ⟨b, w⟩ := c
    have hb := h (b, w) (by simp)
    rw [peek_cons, if_neg (by simp at hb; omega)]
    exact ih (fun c hc => h c (by simp [hc]))

theorem peek_consCell {m : List Host.Cell} {a : Nat} (x : Byte) (h : ∀ c ∈ m, a < c.1) (c : Nat) :
    peek font (consCell font a x m) c = if a = c then x else peek font m c := by
  unfold consCell
  split
  · rename_i hx
    split
    · rename_i hac
      rw [← hac, peek_of_lt h, hx]
    · rfl
  · rfl

/-- A read after a write: the byte written at its address, every other byte as it was (R58). -/
theorem peek_poke {m : List Host.Cell} (h : MemWf font m) (a : Nat) (x : Byte) (c : Nat) :
    peek font (poke font m a x) c = if a = c then x else peek font m c := by
  obtain ⟨hs, he⟩ := h
  induction m with
  | nil => exact peek_consCell x (by simp) c
  | cons d m ih =>
    obtain ⟨b, w⟩ := d
    obtain ⟨hb, hm⟩ := List.pairwise_cons.1 hs
    have ih := ih hm (fun c hc => he c (by simp [hc]))
    unfold poke
    split
    · rename_i hab
      refine peek_consCell x (fun c hc => ?_) c
      rcases List.mem_cons.1 hc with rfl | hc
      · exact hab
      · exact Nat.lt_trans hab (hb c hc)
    · split
      · rename_i _ hab
        subst hab
        rw [peek_consCell x hb, peek_cons]
        split <;> simp_all
      · rw [peek_cons, peek_cons, ih]
        split <;> split <;> simp_all

/-! ### The canonical form -/

theorem memWf_nil : MemWf font [] := ⟨.nil, by simp⟩

theorem memWf_consCell {m : List Host.Cell} (h : MemWf font m) {a : Nat} (ha : a < Config.memSize) (x : Byte)
    (hlt : ∀ c ∈ m, a < c.1) : MemWf font (consCell font a x m) := by
  unfold consCell
  split
  · exact h
  · rename_i hx
    refine ⟨List.pairwise_cons.2 ⟨hlt, h.1⟩, fun c hc => ?_⟩
    rcases List.mem_cons.1 hc with rfl | hc
    · exact ⟨ha, hx⟩
    · exact h.2 c hc

theorem mem_consCell {m : List Host.Cell} {a : Nat} {x : Byte} {c : Host.Cell} (h : c ∈ consCell font a x m) :
    c.1 = a ∨ c ∈ m := by
  unfold consCell at h
  split at h
  · exact .inr h
  · rcases List.mem_cons.1 h with rfl | h
    · exact .inl rfl
    · exact .inr h

theorem mem_poke {m : List Host.Cell} {a : Nat} {x : Byte} {c : Host.Cell} (h : c ∈ poke font m a x) :
    c.1 = a ∨ c ∈ m := by
  induction m with
  | nil => exact mem_consCell h
  | cons d m ih =>
    obtain ⟨b, w⟩ := d
    unfold poke at h
    split at h
    · exact mem_consCell h
    · split at h
      · exact (mem_consCell h).imp_right (List.mem_cons_of_mem _)
      · rcases List.mem_cons.1 h with rfl | h
        · simp
        · exact (ih h).imp_right (List.mem_cons_of_mem _)

/-- A write inside memory keeps the canonical form. -/
theorem memWf_poke {m : List Host.Cell} (h : MemWf font m) {a : Nat} (ha : a < Config.memSize) (x : Byte) :
    MemWf font (poke font m a x) := by
  obtain ⟨hs, he⟩ := h
  induction m with
  | nil => exact memWf_consCell memWf_nil ha x (by simp)
  | cons d m ih =>
    obtain ⟨b, w⟩ := d
    obtain ⟨hb, hm⟩ := List.pairwise_cons.1 hs
    have hem : ∀ c ∈ m, c.1 < Config.memSize ∧ c.2 ≠ resetByte font c.1 := fun c hc => he c (by simp [hc])
    unfold poke
    split
    · rename_i hab
      refine memWf_consCell ⟨hs, he⟩ ha x (fun c hc => ?_)
      rcases List.mem_cons.1 hc with rfl | hc
      · exact hab
      · exact Nat.lt_trans hab (hb c hc)
    · split
      · rename_i _ hab
        exact memWf_consCell ⟨hm, hem⟩ ha x (fun c hc => hab ▸ hb c hc)
      · rename_i h1 h2
        have ih := ih hm hem
        refine ⟨List.pairwise_cons.2 ⟨fun c hc => ?_, ih.1⟩, fun c hc => ?_⟩
        · rcases mem_poke hc with h | h
          · simp only [h]; omega
          · exact hb c h
        · rcases List.mem_cons.1 hc with rfl | hc
          · exact he _ (by simp)
          · exact ih.2 c hc

/-! ### Several bytes -/

/-- Writes inside memory keep the canonical form. -/
theorem memWf_pokeAll {m : List Host.Cell} (h : MemWf font m) {a : Nat} {xs : List Byte}
    (ha : a + xs.length ≤ Config.memSize) : MemWf font (pokeAll font m a xs) := by
  induction xs generalizing m a with
  | nil => exact h
  | cons x xs ih =>
    rw [List.length_cons] at ha
    exact ih (memWf_poke h (by omega) x) (by omega)

/-- A read after writing `xs` from `a`: byte `c - a` of them inside, the byte as it was outside. -/
theorem peek_pokeAll {m : List Host.Cell} (h : MemWf font m) {a : Nat} {xs : List Byte}
    (ha : a + xs.length ≤ Config.memSize) (c : Nat) :
    peek font (pokeAll font m a xs) c = if a ≤ c ∧ c < a + xs.length then xs.getD (c - a) 0x00 else peek font m c := by
  induction xs generalizing m a with
  | nil => simp [pokeAll, show ¬(a ≤ c ∧ c < a) by omega]
  | cons x xs ih =>
    rw [List.length_cons] at ha
    rw [pokeAll, ih (memWf_poke h (by omega) x) (by omega), peek_poke h, List.length_cons]
    by_cases h1 : a = c
    · subst h1
      rw [if_neg (by omega), if_pos rfl, if_pos (by omega), Nat.sub_self, List.getD_cons_zero]
    · by_cases h2 : a + 1 ≤ c ∧ c < a + 1 + xs.length
      · rw [if_pos h2, if_pos (by omega), show c - a = (c - (a + 1)) + 1 by omega, List.getD_cons_succ]
      · rw [if_neg h2, if_neg h1, if_neg (by omega)]

/-- Outside the byte written a read gives what it gave before, in any list of cells. -/
theorem peek_poke_ne (m : List Host.Cell) {a c : Nat} (x : Byte) (h : a ≠ c) :
    peek font (poke font m a x) c = peek font m c := by
  have hcons : ∀ m : List Host.Cell, peek font (consCell font a x m) c = peek font m c := by
    intro m
    unfold consCell
    split
    · rfl
    · rw [peek_cons, if_neg h]
  induction m with
  | nil => exact hcons []
  | cons d m ih =>
    obtain ⟨b, w⟩ := d
    unfold poke
    split
    · exact hcons _
    · split
      · rename_i _ hab
        rw [hcons, peek_cons, if_neg (hab ▸ h)]
      · rw [peek_cons, peek_cons, ih]

/-- Outside the bytes written a read gives what it gave before, in any list of cells. -/
theorem peek_pokeAll_outside (m : List Host.Cell) {a c : Nat} {xs : List Byte} (hc : ¬(a ≤ c ∧ c < a + xs.length)) :
    peek font (pokeAll font m a xs) c = peek font m c := by
  induction xs generalizing m a with
  | nil => rfl
  | cons x xs ih =>
    rw [List.length_cons] at hc
    rw [pokeAll, ih _ (by omega), peek_poke_ne m x (by omega)]

/-- The memory of the reset state is in canonical form (R38). -/
theorem memWf_resetAt (p : Params) (now0 draws : Nat) : MemWf p.font (State.resetAt p now0 draws).mem := memWf_nil

/-- The block store keeps the canonical form where its range has been checked (R55). -/
theorem memWf_storeBytes {s : State} (h : MemWf s.params.font s.mem) {a : Nat} {xs : List Byte}
    (ha : a + xs.length ≤ Config.memSize) : MemWf s.params.font (storeBytes s a xs).mem := memWf_pokeAll h ha

/-- The block store writes memory only. -/
theorem storeBytes_eq (s : State) (a : Nat) (xs : List Byte) :
    storeBytes s a xs = { s with mem := pokeAll s.params.font s.mem a xs } := rfl

/-- A read after a block store: the bytes stored inside its range, what stood there outside. -/
theorem memByte_storeBytes {s : State} (h : MemWf s.params.font s.mem) {a : Nat} {xs : List Byte}
    (ha : a + xs.length ≤ Config.memSize) (c : Nat) :
    memByte (storeBytes s a xs) c = if a ≤ c ∧ c < a + xs.length then xs.getD (c - a) 0x00 else memByte s c :=
  peek_pokeAll h ha c

/-- Outside its range a block store leaves what a read gives, in any state. -/
theorem memByte_storeBytes_outside (s : State) {a c : Nat} {xs : List Byte} (hc : ¬(a ≤ c ∧ c < a + xs.length)) :
    memByte (storeBytes s a xs) c = memByte s c := peek_pokeAll_outside _ hc

/-- The bounds check (R55, R57). -/
theorem inRange_iff (a n : Nat) : inRange a n = true ↔ n = 0 ∨ a + n ≤ 4096 := by
  simp [inRange]

end Sys2Proof.Machine
end

