-- ==== Sys2Proof/Laws/Ops.lean ====
section
/-!
SUPPORT. One law for each shared operation: everything it can do.
-/

namespace Sys2Proof.Machine

/-! ### How an instruction ends -/

/-- A completed instruction changes the result and nothing else of the state it completed with. -/
theorem retOk_next (s : State) : retOk s = .next { s with result := .ok } := rfl

/-- An error changes the result and nothing else (R258). -/
theorem raiseErr_next (e : Err) (s : State) : raiseErr e s = .next { s with result := .err e } := rfl

/-- The range check: the two ways a memory instruction ends (R57). -/
theorem whenInRange_cases (a n : Nat) (s t : State) :
    (n = 0 ∨ a + n ≤ 4096) ∧ whenInRange a n s t = .next { t with result := .ok } ∨
      ¬(n = 0 ∨ a + n ≤ 4096) ∧ whenInRange a n s t = .next { s with result := .err .memoryBounds } := by
  unfold whenInRange
  split <;> rename_i h <;> rw [inRange_iff] at h
  · exact .inl ⟨h, rfl⟩
  · exact .inr ⟨h, rfl⟩

theorem whenInRange_ok {a n : Nat} (h : n = 0 ∨ a + n ≤ 4096) (s t : State) :
    whenInRange a n s t = .next { t with result := .ok } := by
  rw [whenInRange, if_pos ((inRange_iff a n).2 h)]; rfl

theorem whenInRange_err {a n : Nat} (h : ¬(n = 0 ∨ a + n ≤ 4096)) (s t : State) :
    whenInRange a n s t = .next { s with result := .err .memoryBounds } := by
  rw [whenInRange, if_neg (by rwa [inRange_iff])]; rfl

/-! ### The call stack -/

/-- Pop answers nothing exactly on an empty stack (R141). -/
theorem popPc_none {s : State} (h : s.sp = 0) : popPc s = none := if_pos h

/-- Pop on a stack that is not empty: SP goes down by one and PC becomes the entry it then indexes (R141). -/
theorem popPc_some {s : State} (h : s.sp ≠ 0) :
    popPc s = some { s with sp := s.sp - 1, pc := s.stack.getD (s.sp - 1) 0x0000 } := if_neg h

/-- Push answers nothing exactly on a full stack (R143). -/
theorem pushPc_none {s : State} (h : s.sp = s.params.stackCapacity) : pushPc s = none := if_pos h

/-- Push on a stack that is not full: `stack[SP] <- PC`, SP up by one (R143). -/
theorem pushPc_some {s : State} (h : s.sp ≠ s.params.stackCapacity) :
    pushPc s = some { s with stack := s.stack.set s.sp s.pc, sp := s.sp + 1 } := if_neg h

/-! ### Block moves -/

@[simp] theorem firstRegs_length (s : State) (n : Nat) : (firstRegs s n).length = n := by simp [firstRegs]

/-- Byte `k` of the first `n` registers is V[k]. -/
theorem firstRegs_getD (s : State) {n k : Nat} (h : k < n) :
    (firstRegs s n).getD k 0x00 = getV s (BitVec.ofNat 4 k) := by
  simp [firstRegs, List.getD, h]

/-- A block load changes the register file only. -/
theorem loadRegs_eq (s : State) (a n : Nat) : loadRegs s a n = { s with v := (loadRegs s a n).v } := by
  induction n with
  | zero => rfl
  | succ n ih =>
    unfold loadRegs at *
    rw [List.range_succ, List.foldl_append]
    generalize hT : List.foldl _ s (List.range n) = t at *
    rw [ih]; rfl

/-- A block load of at most 16 registers: `V[k]` is `mem[a + k]` for the `n` first, as before for the others
(R196). -/
theorem getV_loadRegs (s : State) (a n : Nat) (hn : n ≤ 16) (r : Nibble) :
    getV (loadRegs s a n) r = if r.toNat < n then memByte s (a + r.toNat) else getV s r := by
  induction n with
  | zero => rfl
  | succ n ih =>
    have hm : ∀ c, memByte (loadRegs s a n) c = memByte s c :=
      memByte_congr (by rw [loadRegs_eq]) (by rw [loadRegs_eq])
    have hstep : loadRegs s a (n + 1) =
        setV (loadRegs s a n) (BitVec.ofNat 4 n) (memByte (loadRegs s a n) (a + n)) := by
      simp [loadRegs, List.range_succ, List.foldl_append]
    have hr : BitVec.ofNat 4 n = r ↔ r.toNat = n := by
      rw [← BitVec.toNat_inj, BitVec.toNat_ofNat, Nat.mod_eq_of_lt (by omega)]
      exact eq_comm
    rw [hstep, getV_setV, hm, ih (by omega)]
    simp only [hr]
    split
    · rename_i h
      rw [if_pos (by omega), h]
    · split
      · rw [if_pos (by omega)]
      · rw [if_neg (by omega)]

/-! ### Nothing reads the result of the operation before (R260) -/

/-- A fold whose every step leaves the result field to itself. -/
theorem foldl_result {α : Type} (f : State → α → State)
    (hf : ∀ s a r, f { s with result := r } a = { f s a with result := r }) (l : List α) (s : State) (r : Result) :
    l.foldl f { s with result := r } = { l.foldl f s with result := r } := by
  induction l generalizing s with
  | nil => rfl
  | cons a l ih => rw [List.foldl_cons, hf, ih]; rfl

theorem togglePixel_result (x y : Nat) (s : State) (r : Result) :
    togglePixel x y { s with result := r } = { togglePixel x y s with result := r } := by
  unfold togglePixel; split <;> rfl

theorem drawRow_result (x y : Nat) (b : Byte) (s : State) (r : Result) :
    drawRow x y b { s with result := r } = { drawRow x y b s with result := r } :=
  foldl_result _ (fun _ _ _ => by
    dsimp only
    split
    · exact togglePixel_result ..
    · rfl) _ s r

theorem drawRows_result (x y n : Nat) (s : State) (r : Result) :
    drawRows x y n { s with result := r } = { drawRows x y n s with result := r } :=
  foldl_result _ (fun _ _ _ => drawRow_result ..) _ s r

theorem loadRegs_result (s : State) (a n : Nat) (r : Result) :
    loadRegs { s with result := r } a n = { loadRegs s a n with result := r } :=
  foldl_result _ (fun _ _ _ => rfl) _ s r

/-! ### Skips -/

/-- A skip adds 2 to PC or leaves it, and changes nothing else (R140). -/
theorem skipIf_eq (c : Bool) (s : State) : skipIf c s = { s with pc := if c then s.pc + 2 else s.pc } := rfl

/-! ### Keys -/

/-- The least pressed key: the scan finds the first true latch (R234). -/
theorem leastKey_some {s : State} {k : Nat} (h : leastKey s = some k) :
    ∃ hk : k < 16, s.key[k] = true ∧ ∀ j (hj : j < k), s.key[j]'(Nat.lt_trans hj hk) = false := by
  unfold leastKey at h
  rw [List.find?_range_eq_some] at h
  obtain ⟨hp, hk, hlt⟩ := h
  have hk : k < 16 := List.mem_range.1 hk
  refine ⟨hk, by simpa [List.getD, hk] using hp, fun j hj => ?_⟩
  simpa [List.getD, show j < 16 by omega] using hlt j hj

/-- No key is found exactly when every latch is false (R234). -/
theorem leastKey_none {s : State} : leastKey s = none ↔ ∀ k (hk : k < 16), s.key[k] = false := by
  unfold leastKey
  rw [List.find?_eq_none]
  constructor
  · intro h k hk
    simpa [List.getD, hk] using h k (List.mem_range.2 hk)
  · intro h k hk
    have hk : k < 16 := List.mem_range.1 hk
    simp [List.getD, hk, h k hk]

end Sys2Proof.Machine
end

