-- ==== Sys2Proof/Laws/Display.lean ====
section
/-!
SUPPORT. The law of the framebuffer's XOR-write unit: what a draw does, in closed form (R212, R213).
-/

namespace Sys2Proof.Machine

/-- `t` is `s` with the cells of the mask `m` toggled: VF is 1 if one of them was lit and as before otherwise, the
flag is set if there is one, and nothing else differs. -/
structure Drawn (m : Nat → Bool) (s t : State) : Prop where
  same : t = { s with v := t.v, fb := t.fb, fbChanged := t.fbChanged }
  cells : ∀ k, cell t k = (cell s k ^^ m k)
  regs : ∀ r, r ≠ vF → getV t r = getV s r
  hit : (∃ k, m k = true ∧ cell s k = true) → getV t vF = 0x01
  miss : (∀ k, m k = true → cell s k = false) → getV t vF = getV s vF
  changed : t.fbChanged = true ↔ s.fbChanged = true ∨ ∃ k, m k = true

theorem Drawn.congr {m m' : Nat → Bool} {s t : State} (h : Drawn m s t) (he : ∀ k, m k = m' k) : Drawn m' s t :=
  (funext he : m = m') ▸ h

theorem Drawn.refl (s : State) : Drawn (fun _ => false) s s :=
  ⟨rfl, by simp, by simp, by simp, by simp, by simp⟩

/-- Two draws on disjoint cells, one after the other, are one draw. -/
theorem Drawn.trans {m m' : Nat → Bool} {s t u : State} (h : Drawn m s t) (h' : Drawn m' t u)
    (hd : ∀ k, m k = true → m' k = false) : Drawn (fun k => m k || m' k) s u where
  same := by rw [h'.same, h.same]
  cells k := by
    rw [h'.cells, h.cells]
    cases hm : m k
    · simp
    · simp [hd k hm]
  regs r hr := (h'.regs r hr).trans (h.regs r hr)
  hit := by
    rintro ⟨k, hk, hs⟩
    by_cases h2 : ∃ j, m' j = true ∧ cell t j = true
    · exact h'.hit h2
    · have hmiss : ∀ j, m' j = true → cell t j = false := fun j hj => by
        cases hc : cell t j
        · rfl
        · exact absurd ⟨j, hj, hc⟩ h2
      rw [h'.miss hmiss]
      refine h.hit ⟨k, ?_, hs⟩
      cases hmk : m k
      · exfalso
        simp only [hmk, Bool.false_or] at hk
        have := hmiss k hk
        rw [h.cells, hmk, hs] at this
        simp at this
      · rfl
  miss hall := by
    have h1 : ∀ j, m j = true → cell s j = false := fun j hj => hall j (by simp [hj])
    have h2 : ∀ j, m' j = true → cell t j = false := fun j hj => by
      have hmj : m j = false := by
        cases hmj : m j
        · rfl
        · rw [hd j hmj] at hj; exact absurd hj (by decide)
      rw [h.cells, hmj, hall j (by simp [hj])]
      rfl
    rw [h'.miss h2, h.miss h1]
  changed := by
    rw [h'.changed, h.changed]
    simp only [Bool.or_eq_true]
    constructor
    · rintro ((h | ⟨k, hk⟩) | ⟨k, hk⟩)
      · exact .inl h
      · exact .inr ⟨k, .inl hk⟩
      · exact .inr ⟨k, .inr hk⟩
    · rintro (h | ⟨k, hk | hk⟩)
      · exact .inl (.inl h)
      · exact .inl (.inr ⟨k, hk⟩)
      · exact .inr ⟨k, hk⟩

/-- The cell of a pixel. -/
theorem cell_at (s : State) {x y : Nat} (hx : x < 64) (hy : y < 32) : cell s (x + y * 64) = (s.fb[y]).getLsbD x := by
  have h1 : (x + y * 64) / 64 = y := by omega
  have h2 : (x + y * 64) % 64 = x := by omega
  simp [cell, h1, h2, hy]

/-- One pixel: toggled when it lies in the framebuffer. -/
theorem drawn_togglePixel (x y : Nat) (s : State) :
    Drawn (fun k => decide (x < 64 ∧ y < 32 ∧ k = x + y * 64)) s (togglePixel x y s) := by
  unfold togglePixel
  split
  · rename_i h
    obtain ⟨hx, hy⟩ := h
    have hcell := cell_at s hx hy
    refine ⟨rfl, fun k => ?_, fun r hr => ?_, fun hk => ?_, fun hk => ?_, ?_⟩
    · unfold cell
      by_cases hk : k / Config.fbWidth < Config.fbHeight
      · simp only [dif_pos hk, Vector.getElem_set]
        split
        · rename_i hrow
          simp only [BitVec.getLsbD_xor, BitVec.getLsbD_twoPow, ← hrow]
          congr 1
          have : k % 64 < 64 := Nat.mod_lt _ (by omega)
          have hk : k / 64 < 32 := hk
          have hrow : y = k / 64 := hrow
          rw [Bool.eq_iff_iff]
          simp only [Config.fbWidth, decide_eq_true_eq, Bool.and_eq_true] at *
          omega
        · rename_i hrow
          simp only [Config.fbWidth] at *
          have : ¬(x < 64 ∧ y < 32 ∧ k = x + y * 64) := by omega
          simp [this]
      · simp only [dif_neg hk]
        have hk : ¬k / 64 < 32 := hk
        have hy : y < 32 := hy
        have : ¬(x < 64 ∧ y < 32 ∧ k = x + y * 64) := by omega
        simp only [this, decide_false, Bool.xor_false]
    · have hr15 : r.toNat ≠ 15 := fun he => hr (BitVec.eq_of_toNat_eq he)
      unfold getV
      dsimp only
      split
      · simp [Ne.symm hr15]
      · rfl
    · obtain ⟨k, hm, hc⟩ := hk
      simp only [decide_eq_true_eq] at hm
      rw [hm.2.2, hcell] at hc
      simp [getV, vF, hc]
    · have := hk (x + y * 64) (by simp only [decide_eq_true_eq]; exact ⟨hx, hy, trivial⟩)
      rw [hcell] at this
      simp [getV, this]
    · simp only [true_iff]
      exact .inr ⟨x + y * 64, by simp only [decide_eq_true_eq]; exact ⟨hx, hy, trivial⟩⟩
  · rename_i h
    refine (Drawn.refl s).congr fun k => ?_
    simp only [Config.fbWidth, Config.fbHeight] at h
    have : ¬(x < 64 ∧ y < 32 ∧ k = x + y * 64) := fun hh => h ⟨hh.1, hh.2.1⟩
    simp [this]

/-- The cells of the first `c` sprite columns of the row `b` at `(x0, y)`. -/
def rowMask (x0 y : Nat) (b : Byte) (c k : Nat) : Bool :=
  decide (x0 ≤ k % 64 ∧ k % 64 < x0 + c ∧ k / 64 = y ∧ k < 2048) && b.getLsbD (7 - (k % 64 - x0))

theorem drawn_columns (x0 y : Nat) (b : Byte) (s : State) (c : Nat) :
    Drawn (rowMask x0 y b c) s
      ((List.range c).foldl (fun t col => if b.getLsbD (7 - col) then togglePixel (x0 + col) y t else t) s) := by
  induction c with
  | zero =>
    refine (Drawn.refl s).congr fun k => ?_
    have : ¬(x0 ≤ k % 64 ∧ k % 64 < x0 + 0 ∧ k / 64 = y ∧ k < 2048) := by omega
    simp only [rowMask, this, decide_false, Bool.false_and]
  | succ c ih =>
    rw [List.range_succ, List.foldl_append]
    generalize List.foldl _ s (List.range c) = t at *
    simp only [List.foldl_cons, List.foldl_nil]
    have hone : Drawn (fun k => b.getLsbD (7 - c) && decide (x0 + c < 64 ∧ y < 32 ∧ k = x0 + c + y * 64)) t
        (if b.getLsbD (7 - c) then togglePixel (x0 + c) y t else t) := by
      split
      · rename_i hb
        exact (drawn_togglePixel _ _ t).congr fun k => by simp only [hb, Bool.true_and]
      · rename_i hb
        exact (Drawn.refl t).congr fun k => by simp only [hb, Bool.false_and]
    refine (ih.trans hone fun k hk => ?_).congr fun k => ?_
    · simp only [rowMask, Bool.and_eq_true, decide_eq_true_eq] at hk
      have : ¬(x0 + c < 64 ∧ y < 32 ∧ k = x0 + c + y * 64) := by omega
      simp only [this, decide_false, Bool.and_false]
    · simp only [rowMask]
      by_cases hk : x0 + c < 64 ∧ y < 32 ∧ k = x0 + c + y * 64
      · have h1 : ¬(x0 ≤ k % 64 ∧ k % 64 < x0 + c ∧ k / 64 = y ∧ k < 2048) := by omega
        have h2 : x0 ≤ k % 64 ∧ k % 64 < x0 + (c + 1) ∧ k / 64 = y ∧ k < 2048 := by omega
        have h3 : k % 64 - x0 = c := by omega
        simp only [decide_eq_false h1, decide_eq_true h2, decide_eq_true hk, h3, Bool.false_and, Bool.true_and,
          Bool.and_true, Bool.false_or]
      · have h1 : (x0 ≤ k % 64 ∧ k % 64 < x0 + (c + 1) ∧ k / 64 = y ∧ k < 2048) ↔
            (x0 ≤ k % 64 ∧ k % 64 < x0 + c ∧ k / 64 = y ∧ k < 2048) := by omega
        simp only [h1, hk, decide_false, Bool.and_false, Bool.or_false]

/-- One sprite row. -/
theorem drawn_drawRow (x0 y : Nat) (b : Byte) (s : State) : Drawn (rowMask x0 y b 8) s (drawRow x0 y b s) :=
  drawn_columns x0 y b s 8

/-- THE LAW OF A DRAW (R212, R213 (a), (b)): `n` rows at `(x0, y0)` toggle exactly the cells of `spriteBit`. -/
theorem drawn_drawRows (x0 y0 n : Nat) (s : State) : Drawn (spriteBit s x0 y0 n) s (drawRows x0 y0 n s) := by
  induction n with
  | zero =>
    refine (Drawn.refl s).congr fun k => ?_
    have : ¬(x0 ≤ k % 64 ∧ k % 64 < x0 + 8 ∧ y0 ≤ k / 64 ∧ k / 64 < y0 + 0 ∧ k < 2048) := by omega
    simp only [spriteBit, this, decide_false, Bool.false_and]
  | succ n ih =>
    have hstep : drawRows x0 y0 (n + 1) s =
        drawRow x0 (y0 + n) (memByte (drawRows x0 y0 n s) ((drawRows x0 y0 n s).i.toNat + n)) (drawRows x0 y0 n s) := by
      simp [drawRows, List.range_succ, List.foldl_append]
    have hmem : ∀ c, memByte (drawRows x0 y0 n s) c = memByte s c :=
      memByte_congr (by rw [ih.same]) (by rw [ih.same])
    have hi : (drawRows x0 y0 n s).i = s.i := by rw [ih.same]
    rw [hstep, hmem, hi]
    refine (ih.trans (drawn_drawRow _ _ _ _) fun k hk => ?_).congr fun k => ?_
    · simp only [spriteBit, Bool.and_eq_true, decide_eq_true_eq] at hk
      have : ¬(x0 ≤ k % 64 ∧ k % 64 < x0 + 8 ∧ k / 64 = y0 + n ∧ k < 2048) := by omega
      simp only [rowMask, this, decide_false, Bool.false_and]
    · simp only [spriteBit, rowMask]
      by_cases hk : k / 64 = y0 + n
      · have h1 : ¬(x0 ≤ k % 64 ∧ k % 64 < x0 + 8 ∧ y0 ≤ k / 64 ∧ k / 64 < y0 + n ∧ k < 2048) := by omega
        have h2 : (x0 ≤ k % 64 ∧ k % 64 < x0 + 8 ∧ y0 ≤ k / 64 ∧ k / 64 < y0 + (n + 1) ∧ k < 2048) ↔
            (x0 ≤ k % 64 ∧ k % 64 < x0 + 8 ∧ k / 64 = y0 + n ∧ k < 2048) := by omega
        have h3 : k / 64 - y0 = n := by omega
        simp only [h1, h2, h3, decide_false, Bool.false_and, Bool.false_or]
      · have h1 : ¬(x0 ≤ k % 64 ∧ k % 64 < x0 + 8 ∧ k / 64 = y0 + n ∧ k < 2048) := by omega
        have h2 : (x0 ≤ k % 64 ∧ k % 64 < x0 + 8 ∧ y0 ≤ k / 64 ∧ k / 64 < y0 + (n + 1) ∧ k < 2048) ↔
            (x0 ≤ k % 64 ∧ k % 64 < x0 + 8 ∧ y0 ≤ k / 64 ∧ k / 64 < y0 + n ∧ k < 2048) := by omega
        simp only [h1, h2, decide_false, Bool.false_and, Bool.or_false]

end Sys2Proof.Machine
end

