-- ==== Sys2Proof/Laws/PerInstr.lean ====
section
/-!
SUPPORT. One law per instruction about its encoding: the word the encoder builds lies in the instruction's own row of
the opcode map (R92), whatever its fields hold.
-/

namespace Sys2Proof.Laws.OpcodeRow

/-- The column `mask` of R92. -/
def mask (i : Instr) : Word :=
  match i with
  | .cls _ _ => 0xF00F
  | .ret _ _ => 0xF00F
  | .jp _ => 0xF000
  | .call _ => 0xF000
  | .seImm _ _ => 0xF000
  | .sneImm _ _ => 0xF000
  | .seReg _ _ _ => 0xF000
  | .ldImm _ _ => 0xF000
  | .addImm _ _ => 0xF000
  | .ldReg _ _ => 0xF00F
  | .or _ _ => 0xF00F
  | .and _ _ => 0xF00F
  | .xor _ _ => 0xF00F
  | .addReg _ _ => 0xF00F
  | .sub _ _ => 0xF00F
  | .shr _ _ => 0xF00F
  | .subn _ _ => 0xF00F
  | .shl _ _ => 0xF00F
  | .sneReg _ _ _ => 0xF000
  | .ldI _ => 0xF000
  | .jpV0 _ => 0xF000
  | .rnd _ _ => 0xF000
  | .drw _ _ _ => 0xF000
  | .skp _ => 0xF0FF
  | .sknp _ => 0xF0FF
  | .ldFromDT _ => 0xF0FF
  | .ldKey _ => 0xF0FF
  | .ldToDT _ => 0xF0FF
  | .ldToST _ => 0xF0FF
  | .addI _ => 0xF0FF
  | .ldFont _ => 0xF0FF
  | .ldBcd _ => 0xF0FF
  | .store _ => 0xF0FF
  | .load _ => 0xF0FF

/-- The column `match` of R92. -/
def value (i : Instr) : Word :=
  match i with
  | .cls _ _ => 0x0000
  | .ret _ _ => 0x000E
  | .jp _ => 0x1000
  | .call _ => 0x2000
  | .seImm _ _ => 0x3000
  | .sneImm _ _ => 0x4000
  | .seReg _ _ _ => 0x5000
  | .ldImm _ _ => 0x6000
  | .addImm _ _ => 0x7000
  | .ldReg _ _ => 0x8000
  | .or _ _ => 0x8001
  | .and _ _ => 0x8002
  | .xor _ _ => 0x8003
  | .addReg _ _ => 0x8004
  | .sub _ _ => 0x8005
  | .shr _ _ => 0x8006
  | .subn _ _ => 0x8007
  | .shl _ _ => 0x800E
  | .sneReg _ _ _ => 0x9000
  | .ldI _ => 0xA000
  | .jpV0 _ => 0xB000
  | .rnd _ _ => 0xC000
  | .drw _ _ _ => 0xD000
  | .skp _ => 0xE09E
  | .sknp _ => 0xE0A1
  | .ldFromDT _ => 0xF007
  | .ldKey _ => 0xF00A
  | .ldToDT _ => 0xF015
  | .ldToST _ => 0xF018
  | .addI _ => 0xF01E
  | .ldFont _ => 0xF029
  | .ldBcd _ => 0xF033
  | .store _ => 0xF055
  | .load _ => 0xF065

/-- The instruction's word, masked, is its row's value. -/
def Statement (i : Instr) : Prop := encode i &&& mask i = value i

/-! ### A mask over a built word -/

theorem and_nibbles (g x y n g' x' y' n' : Nibble) :
    wordOfNibbles g x y n &&& wordOfNibbles g' x' y' n' = wordOfNibbles (g &&& g') (x &&& x') (y &&& y') (n &&& n') := by
  refine BitVec.eq_of_getLsbD_eq fun i hi => ?_
  simp only [BitVec.getLsbD_and, getLsbD_wordOfNibbles]
  repeat' split
  all_goals rfl

theorem and_imm (g x g' x' : Nibble) (k k' : Byte) :
    wordOfImm g x k &&& wordOfImm g' x' k' = wordOfImm (g &&& g') (x &&& x') (k &&& k') := by
  refine BitVec.eq_of_getLsbD_eq fun i hi => ?_
  simp only [BitVec.getLsbD_and, getLsbD_wordOfImm]
  repeat' split
  all_goals rfl

theorem and_addr (g g' : Nibble) (a a' : Addr) :
    wordOfAddr g a &&& wordOfAddr g' a' = wordOfAddr (g &&& g') (a &&& a') := by
  refine BitVec.eq_of_getLsbD_eq fun i hi => ?_
  simp only [BitVec.getLsbD_and, getLsbD_wordOfAddr]
  split <;> rfl

/-- Formats Z and D: the mask 0xF00F keeps the group and N. -/
theorem keeps_N (g x y n : Nibble) : wordOfNibbles g x y n &&& 0xF00F = wordOfNibbles g 0x0 0x0 n := by
  have h := and_nibbles g x y n 0xF#4 0x0#4 0x0#4 0xF#4
  rwa [BitVec.and_zero, BitVec.and_zero, show (0xF#4 : Nibble) = BitVec.allOnes 4 from rfl, BitVec.and_allOnes,
    BitVec.and_allOnes] at h

/-- Format C: the mask 0xF000 keeps the group. -/
theorem keeps_group (g x y n : Nibble) : wordOfNibbles g x y n &&& 0xF000 = wordOfNibbles g 0x0 0x0 0x0 := by
  have h := and_nibbles g x y n 0xF#4 0x0#4 0x0#4 0x0#4
  rwa [BitVec.and_zero, BitVec.and_zero, BitVec.and_zero, show (0xF#4 : Nibble) = BitVec.allOnes 4 from rfl,
    BitVec.and_allOnes] at h

/-- Format B: the mask 0xF000 keeps the group. -/
theorem keeps_group_imm (g x : Nibble) (k : Byte) : wordOfImm g x k &&& 0xF000 = wordOfImm g 0x0 0x00 := by
  have h := and_imm g x 0xF#4 0x0#4 k 0x00#8
  rwa [BitVec.and_zero, BitVec.and_zero, show (0xF#4 : Nibble) = BitVec.allOnes 4 from rfl, BitVec.and_allOnes] at h

/-- Format E: the mask 0xF0FF keeps the group and the low byte. -/
theorem keeps_imm (g x : Nibble) (k : Byte) : wordOfImm g x k &&& 0xF0FF = wordOfImm g 0x0 k := by
  have h := and_imm g x 0xF#4 0x0#4 k 0xFF#8
  rwa [BitVec.and_zero, show (0xF#4 : Nibble) = BitVec.allOnes 4 from rfl,
    show (0xFF#8 : Byte) = BitVec.allOnes 8 from rfl, BitVec.and_allOnes, BitVec.and_allOnes] at h

/-- Format A: the mask 0xF000 keeps the group. -/
theorem keeps_group_addr (g : Nibble) (a : Addr) : wordOfAddr g a &&& 0xF000 = wordOfAddr g 0x000 := by
  have h := and_addr g 0xF#4 a 0x000#12
  rwa [BitVec.and_zero, show (0xF#4 : Nibble) = BitVec.allOnes 4 from rfl, BitVec.and_allOnes] at h

/-! ### The instructions -/

theorem cls (x y : Nibble) : Statement (.cls x y) :=
  keeps_N _ _ _ _

theorem ret (x y : Nibble) : Statement (.ret x y) :=
  keeps_N _ _ _ _

theorem jp (addr : Addr) : Statement (.jp addr) :=
  keeps_group_addr _ _

theorem call (addr : Addr) : Statement (.call addr) :=
  keeps_group_addr _ _

theorem seImm (x : Nibble) (imm : Byte) : Statement (.seImm x imm) :=
  keeps_group_imm _ _ _

theorem sneImm (x : Nibble) (imm : Byte) : Statement (.sneImm x imm) :=
  keeps_group_imm _ _ _

theorem seReg (x y n : Nibble) : Statement (.seReg x y n) :=
  keeps_group _ _ _ _

theorem ldImm (x : Nibble) (imm : Byte) : Statement (.ldImm x imm) :=
  keeps_group_imm _ _ _

theorem addImm (x : Nibble) (imm : Byte) : Statement (.addImm x imm) :=
  keeps_group_imm _ _ _

theorem ldReg (x y : Nibble) : Statement (.ldReg x y) :=
  keeps_N _ _ _ _

theorem or (x y : Nibble) : Statement (.or x y) :=
  keeps_N _ _ _ _

theorem and (x y : Nibble) : Statement (.and x y) :=
  keeps_N _ _ _ _

theorem xor (x y : Nibble) : Statement (.xor x y) :=
  keeps_N _ _ _ _

theorem addReg (x y : Nibble) : Statement (.addReg x y) :=
  keeps_N _ _ _ _

theorem sub (x y : Nibble) : Statement (.sub x y) :=
  keeps_N _ _ _ _

theorem shr (x y : Nibble) : Statement (.shr x y) :=
  keeps_N _ _ _ _

theorem subn (x y : Nibble) : Statement (.subn x y) :=
  keeps_N _ _ _ _

theorem shl (x y : Nibble) : Statement (.shl x y) :=
  keeps_N _ _ _ _

theorem sneReg (x y n : Nibble) : Statement (.sneReg x y n) :=
  keeps_group _ _ _ _

theorem ldI (addr : Addr) : Statement (.ldI addr) :=
  keeps_group_addr _ _

theorem jpV0 (addr : Addr) : Statement (.jpV0 addr) :=
  keeps_group_addr _ _

theorem rnd (x : Nibble) (imm : Byte) : Statement (.rnd x imm) :=
  keeps_group_imm _ _ _

theorem drw (x y n : Nibble) : Statement (.drw x y n) :=
  keeps_group _ _ _ _

theorem skp (x : Nibble) : Statement (.skp x) :=
  keeps_imm _ _ _

theorem sknp (x : Nibble) : Statement (.sknp x) :=
  keeps_imm _ _ _

theorem ldFromDT (x : Nibble) : Statement (.ldFromDT x) :=
  keeps_imm _ _ _

theorem ldKey (x : Nibble) : Statement (.ldKey x) :=
  keeps_imm _ _ _

theorem ldToDT (x : Nibble) : Statement (.ldToDT x) :=
  keeps_imm _ _ _

theorem ldToST (x : Nibble) : Statement (.ldToST x) :=
  keeps_imm _ _ _

theorem addI (x : Nibble) : Statement (.addI x) :=
  keeps_imm _ _ _

theorem ldFont (x : Nibble) : Statement (.ldFont x) :=
  keeps_imm _ _ _

theorem ldBcd (x : Nibble) : Statement (.ldBcd x) :=
  keeps_imm _ _ _

theorem store (x : Nibble) : Statement (.store x) :=
  keeps_imm _ _ _

theorem load (x : Nibble) : Statement (.load x) :=
  keeps_imm _ _ _

end Sys2Proof.Laws.OpcodeRow
end

