-- ==== Sys2Proof/Laws/Step.lean ====
section
/-!
SUPPORT. What the execute phase and a step can do, said once: `exec` always answers a next state that differs from the
one before in the execute phase's fields only, and a step is one of three cases.
-/

namespace Sys2Proof.Machine

/-! ### The instructions that end in more than one way -/

/-- A return on an empty stack (R141). -/
theorem execRet_empty (x y : Nibble) {s : State} (h : s.sp = 0) :
    execRet x y s = .next { s with result := .err .stackUnderflow } := by
  rw [execRet, popPc_none h]; rfl

/-- A return on a stack that is not empty (R141). -/
theorem execRet_live (x y : Nibble) {s : State} (h : s.sp ≠ 0) :
    execRet x y s = .next { s with sp := s.sp - 1, pc := s.stack.getD (s.sp - 1) 0x0000, result := .ok } := by
  rw [execRet, popPc_some h]; rfl

/-- A call on a full stack (R143). -/
theorem execCall_full (a : Addr) {s : State} (h : s.sp = s.params.stackCapacity) :
    execCall a s = .next { s with result := .err .stackOverflow } := by
  rw [execCall, pushPc_none h]; rfl

/-- A call on a stack that is not full (R143). -/
theorem execCall_free (a : Addr) {s : State} (h : s.sp ≠ s.params.stackCapacity) :
    execCall a s = .next { s with stack := s.stack.set s.sp s.pc, sp := s.sp + 1, pc := zextAddr a, result := .ok } := by
  rw [execCall, pushPc_some h]; rfl

/-- FX0A with a key down (R234). -/
theorem execLdKey_some (x : Nibble) (s : State) {k : Nat} (h : leastKey s = some k) :
    execLdKey x s = .next { setV s x (BitVec.ofNat 8 k) with result := .ok } := by
  rw [execLdKey, h]; rfl

/-- FX0A with no key down (R234). -/
theorem execLdKey_none (x : Nibble) (s : State) (h : leastKey s = none) :
    execLdKey x s = .next { s with pc := s.pc - 2, result := .ok } := by
  rw [execLdKey, h]; rfl

/-! ### Execute -/

/-- A draw changes VF, the framebuffer and the flag only. -/
theorem drawRows_same (x0 y0 n : Nat) (s : State) : drawRows x0 y0 n s =
    { s with v := (drawRows x0 y0 n s).v, fb := (drawRows x0 y0 n s).fb,
             fbChanged := (drawRows x0 y0 n s).fbChanged } :=
  (drawn_drawRows x0 y0 n s).same

/-- The execute phase answers a next state for every instruction in every state, and leaves the keys, the tick
reference, the parameters and the model's own fields (but for the result) alone. -/
theorem exec_next (i : Instr) (s : State) : ∃ t, exec i s = .next t ∧
    t.key = s.key ∧ t.tickRef = s.tickRef ∧ t.loadOpen = s.loadOpen ∧ t.now = s.now ∧ t.rand8 = s.rand8 ∧
    t.draws = s.draws ∧ t.params = s.params := by
  cases i
  case ret x y =>
    by_cases h : s.sp = 0
    · exact ⟨_, execRet_empty x y h, rfl, rfl, rfl, rfl, rfl, rfl, rfl⟩
    · exact ⟨_, execRet_live x y h, rfl, rfl, rfl, rfl, rfl, rfl, rfl⟩
  case call a =>
    by_cases h : s.sp = s.params.stackCapacity
    · exact ⟨_, execCall_full a h, rfl, rfl, rfl, rfl, rfl, rfl, rfl⟩
    · exact ⟨_, execCall_free a h, rfl, rfl, rfl, rfl, rfl, rfl, rfl⟩
  case ldKey x =>
    cases h : leastKey s with
    | some k => exact ⟨_, execLdKey_some x s h, rfl, rfl, rfl, rfl, rfl, rfl, rfl⟩
    | none => exact ⟨_, execLdKey_none x s h, rfl, rfl, rfl, rfl, rfl, rfl, rfl⟩
  case drw x y n =>
    obtain ⟨-, h⟩ | ⟨-, h⟩ := whenInRange_cases (baseAddr s) n.toNat s
      (drawRows (originX s x) (originY s y) n.toNat (setV s vF 0x00))
    · exact ⟨_, h, by simp only []; rw [drawRows_same]; exact ⟨rfl, rfl, rfl, rfl, rfl, rfl, rfl⟩⟩
    · exact ⟨_, h, rfl, rfl, rfl, rfl, rfl, rfl, rfl⟩
  case load x =>
    obtain ⟨-, h⟩ | ⟨-, h⟩ := whenInRange_cases (baseAddr s) (x.toNat + 1) s
      (loadRegs s (baseAddr s) (x.toNat + 1))
    · exact ⟨_, h, by simp only []; rw [loadRegs_eq]; exact ⟨rfl, rfl, rfl, rfl, rfl, rfl, rfl⟩⟩
    · exact ⟨_, h, rfl, rfl, rfl, rfl, rfl, rfl, rfl⟩
  case ldBcd x =>
    obtain ⟨-, h⟩ | ⟨-, h⟩ := whenInRange_cases (baseAddr s) 3 s (storeBytes s (baseAddr s) (bcdDigits (getV s x)))
    all_goals exact ⟨_, h, rfl, rfl, rfl, rfl, rfl, rfl, rfl⟩
  case store x =>
    obtain ⟨-, h⟩ | ⟨-, h⟩ := whenInRange_cases (baseAddr s) (x.toNat + 1) s
      (storeBytes s (baseAddr s) (firstRegs s (x.toNat + 1)))
    all_goals exact ⟨_, h, rfl, rfl, rfl, rfl, rfl, rfl, rfl⟩
  all_goals exact ⟨_, rfl, rfl, rfl, rfl, rfl, rfl, rfl, rfl⟩

/-! ### The timer tick -/

/-- A tick is due when 1/60 s or more has passed, on signed numbers (R265). -/
theorem tickDue_iff (s : State) : tickDue s = true ↔ TickDue s := by
  simp only [tickDue, TickDue, Config.tickPeriod, decide_eq_true_eq]; omega

/-- A due tick takes a timer down by one with floor 0 (R266). -/
theorem toNat_countDown (t : Byte) : (countDown true t).toNat = t.toNat - 1 := by revert t; decide

/-- Without a tick a timer stays. -/
theorem countDown_false (t : Byte) : countDown false t = t := by revert t; decide

/-! ### Step -/

/-- The fetch reads the word at PC exactly when both its bytes lie in memory (R115). -/
theorem fetchWord_eq (s : State) :
    (s.pc.toNat + 1 ≤ 4095 ∧ fetchWord s = .ok (memByte s s.pc.toNat ++ memByte s (s.pc.toNat + 1))) ∨
      (s.pc.toNat + 1 > 4095 ∧ fetchWord s = .error .memoryBounds) := by
  unfold fetchWord
  split <;> rename_i h <;> rw [inRange_iff] at h
  · exact .inl ⟨by omega, rfl⟩
  · exact .inr ⟨by omega, rfl⟩

/-- There is one word at PC. -/
theorem WordAtPc.unique {s : State} {w w' : Word} (h : WordAtPc s w) (h' : WordAtPc s w') : w = w' :=
  h.2.trans h'.2.symm

/-- There is one next instruction. -/
theorem NextIs.unique {s : State} {i j : Instr} (h : NextIs s i) (h' : NextIs s j) : i = j := by
  obtain ⟨w, hw, hi⟩ := h
  obtain ⟨w', hw', hj⟩ := h'
  rw [hw'.unique hw, hi] at hj
  exact Except.ok.inj hj

/-- An instruction stored with `withFetchWord` is the word at PC (R80, R115). -/
theorem wordAtPc_withFetchWord {s : State} (hm : MemWf s.params.font s.mem) (hp : s.pc.toNat + 1 ≤ 4095) (w : Word) :
    WordAtPc (s.withFetchWord 16 w.toNat) w := by
  have hb : tableBytes 16 w.toNat = splitBytes w := by
    rw [tableBytes, Nat.mod_eq_of_lt w.isLt, BitVec.ofNat_toNat, BitVec.setWidth_eq]
  have hr : inRange s.pc.toNat (splitBytes w).length = true := (inRange_iff _ _).2 (.inr (by simp [splitBytes]; omega))
  have hl : s.pc.toNat + (splitBytes w).length ≤ Config.memSize := by simp [splitBytes, Config.memSize]; omega
  have hs : s.withFetchWord 16 w.toNat = storeBytes s s.pc.toNat (splitBytes w) := by
    rw [State.withFetchWord, placeBytes, hb, if_pos hr]
  rw [hs]
  refine ⟨hp, ?_⟩
  rw [storeBytes_pc, memByte_storeBytes hm hl, memByte_storeBytes hm hl, if_pos (by simp [splitBytes]),
    if_pos (by simp [splitBytes])]
  simpa [splitBytes, joinBytes] using (joinBytes_split w).symm

/-- A step whose fetch fails (R115, R258). -/
theorem step_fetchError {s : State} (h : s.pc.toNat + 1 > 4095) :
    step s = .next (endStep { timerTick s with result := .err .memoryBounds }) := by
  obtain ⟨h', -⟩ | ⟨-, he⟩ := fetchWord_eq (timerTick s)
  · simp only [timerTick_pc] at h'; omega
  · rw [step, runPhases, he]; rfl

/-- A step that fetches the word `w` (R114). -/
theorem step_word {s : State} {w : Word} (h : WordAtPc s w) :
    step s = mapNext endStep (execWord w (advancePc (timerTick s))) := by
  obtain ⟨-, he⟩ | ⟨h', -⟩ := fetchWord_eq (timerTick s)
  · rw [step, runPhases, he, h.2]; rfl
  · have := h.1
    simp only [timerTick_pc] at h'; omega

/-- WHAT A STEP CAN DO: its fetch fails; or the word at PC is undefined and the step is a no-op; or the word is an
instruction and the step is its execution. -/
theorem step_cases (s : State) :
    (s.pc.toNat + 1 > 4095 ∧ step s = .next (endStep { timerTick s with result := .err .memoryBounds })) ∨
      (∃ w e, WordAtPc s w ∧ decodeWord w = .error e ∧
        step s = .next (endStep { advancePc (timerTick s) with result := .ok })) ∨
      ∃ i t, NextIs s i ∧ exec i (advancePc (timerTick s)) = .next t ∧ step s = .next (endStep t) := by
  by_cases h : s.pc.toNat + 1 > 4095
  · exact .inl ⟨h, step_fetchError h⟩
  · have hw : WordAtPc s (memByte s s.pc.toNat ++ memByte s (s.pc.toNat + 1)) := ⟨by omega, rfl⟩
    generalize memByte s s.pc.toNat ++ memByte s (s.pc.toNat + 1) = w at hw
    have hs := step_word hw
    unfold execWord at hs
    cases hd : decodeWord w with
    | ok i =>
      obtain ⟨t, ht, -⟩ := exec_next i (advancePc (timerTick s))
      rw [hd] at hs
      simp only [ht] at hs
      exact .inr (.inr ⟨i, t, ⟨w, hw, hd⟩, ht, hs⟩)
    | error e =>
      rw [hd] at hs
      exact .inr (.inl ⟨w, e, hw, hd, hs⟩)

end Sys2Proof.Machine
end

