-- ==== Sys2Proof/Tests/Slice0.lean ====
section
/-!
SUPPORT. Our own tests. Words are written out from the opcode map (R92); the states before and after are the vectors of
spec/95_test_vectors.md, named beside each test. The witnesses at the end meet the hypotheses of the statements.
-/

namespace Sys2Proof.Tests

open Sys2Proof.Machine

/-! ### Ill-formed terms: one for each check of `wellFormed` (R91) -/

theorem test_wf_cls_x : (Instr.cls 0x1 0xE).wellFormed = false := by decide
theorem test_wf_cls_y : (Instr.cls 0x0 0x0).wellFormed = false := by decide
theorem test_wf_ret_x : (Instr.ret 0x1 0xE).wellFormed = false := by decide
theorem test_wf_ret_y : (Instr.ret 0x0 0x2).wellFormed = false := by decide
theorem test_wf_seReg_n : (Instr.seReg 0x1 0x2 0x7).wellFormed = false := by decide
theorem test_wf_sneReg_n : (Instr.sneReg 0x1 0x2 0x5).wellFormed = false := by decide
theorem test_wf_accepts : (Instr.cls 0x0 0xE).wellFormed && (Instr.ret 0x0 0xE).wellFormed &&
    (Instr.seReg 0x1 0x2 0x0).wellFormed && (Instr.shr 0x1 0x2).wellFormed = true := by decide

/-! ### Decoding: each constructor from a word written out from R92, and words of R90 -/

theorem test_decode_cls : decodeTableWord 16 0x00E0 = some (.cls 0x0 0xE) := by decide
theorem test_decode_ret : decodeTableWord 16 0x00EE = some (.ret 0x0 0xE) := by decide
theorem test_decode_jp : decodeTableWord 16 0x1234 = some (.jp 0x234) := by decide
theorem test_decode_call : decodeTableWord 16 0x2ABC = some (.call 0xABC) := by decide
theorem test_decode_seImm : decodeTableWord 16 0x332A = some (.seImm 0x3 0x2A) := by decide
theorem test_decode_sneImm : decodeTableWord 16 0x4A01 = some (.sneImm 0xA 0x01) := by decide
theorem test_decode_seReg : decodeTableWord 16 0x5120 = some (.seReg 0x1 0x2 0x0) := by decide
theorem test_decode_ldImm : decodeTableWord 16 0x6A2C = some (.ldImm 0xA 0x2C) := by decide
theorem test_decode_addImm : decodeTableWord 16 0x7220 = some (.addImm 0x2 0x20) := by decide
theorem test_decode_ldReg : decodeTableWord 16 0x8510 = some (.ldReg 0x5 0x1) := by decide
theorem test_decode_or : decodeTableWord 16 0x8121 = some (.or 0x1 0x2) := by decide
theorem test_decode_and : decodeTableWord 16 0x8122 = some (.and 0x1 0x2) := by decide
theorem test_decode_xor : decodeTableWord 16 0x8123 = some (.xor 0x1 0x2) := by decide
theorem test_decode_addReg : decodeTableWord 16 0x8AB4 = some (.addReg 0xA 0xB) := by decide
theorem test_decode_sub : decodeTableWord 16 0x8AB5 = some (.sub 0xA 0xB) := by decide
theorem test_decode_shr : decodeTableWord 16 0x8406 = some (.shr 0x4 0x0) := by decide
theorem test_decode_subn : decodeTableWord 16 0x8127 = some (.subn 0x1 0x2) := by decide
theorem test_decode_shl : decodeTableWord 16 0x840E = some (.shl 0x4 0x0) := by decide
theorem test_decode_sneReg : decodeTableWord 16 0x9120 = some (.sneReg 0x1 0x2 0x0) := by decide
theorem test_decode_ldI : decodeTableWord 16 0xA2F0 = some (.ldI 0x2F0) := by decide
theorem test_decode_jpV0 : decodeTableWord 16 0xB300 = some (.jpV0 0x300) := by decide
theorem test_decode_rnd : decodeTableWord 16 0xC30F = some (.rnd 0x3 0x0F) := by decide
theorem test_decode_drw : decodeTableWord 16 0xD012 = some (.drw 0x0 0x1 0x2) := by decide
theorem test_decode_skp : decodeTableWord 16 0xE29E = some (.skp 0x2) := by decide
theorem test_decode_sknp : decodeTableWord 16 0xE2A1 = some (.sknp 0x2) := by decide
theorem test_decode_ldFromDT : decodeTableWord 16 0xF407 = some (.ldFromDT 0x4) := by decide
theorem test_decode_ldKey : decodeTableWord 16 0xF30A = some (.ldKey 0x3) := by decide
theorem test_decode_ldToDT : decodeTableWord 16 0xF115 = some (.ldToDT 0x1) := by decide
theorem test_decode_ldToST : decodeTableWord 16 0xF118 = some (.ldToST 0x1) := by decide
theorem test_decode_addI : decodeTableWord 16 0xF21E = some (.addI 0x2) := by decide
theorem test_decode_ldFont : decodeTableWord 16 0xF329 = some (.ldFont 0x3) := by decide
theorem test_decode_ldBcd : decodeTableWord 16 0xF033 = some (.ldBcd 0x0) := by decide
theorem test_decode_store : decodeTableWord 16 0xF255 = some (.store 0x2) := by decide
theorem test_decode_load : decodeTableWord 16 0xF265 = some (.load 0x2) := by decide
theorem test_decode_alias_cls : decodeTableWord 16 0x0AB0 = some (.cls 0xA 0xB) := by decide
theorem test_decode_alias_seReg : decodeTableWord 16 0x5AB7 = some (.seReg 0xA 0xB 0x7) := by decide
theorem test_decode_undefined :
    [0x00E1, 0x8AB8, 0xEA00, 0xEA90, 0xFA00, 0xFFFF].map (decodeTableWord 16) = List.replicate 6 none := by decide
/-- R80: the byte at the lower address is the more significant one, and the bytes that follow are left. -/
theorem test_decode_bytes : decode [0x12, 0x34, 0xAB] = .ok (.jp 0x234, [0xAB]) := by rfl
theorem test_decode_truncated : decode [0x12] = .error .truncated := by rfl

/-! ### Helpers -/

/-- The state an answer gives, if it is a next state. -/
def nextOf (o : Answer) : Option State :=
  match o with
  | .next s => some s
  | .fault _ => none
  | .refused _ => none

/-- The start state of the vectors: reset, with `now = 0` and `rand8 = 0`. -/
def base : State := withInputs 0 0x00 State.reset

/-- One step with the word `w` at PC, looked at through `f`. -/
def look {α : Type} (w : Nat) (s : State) (f : State → α) : Option α := (nextOf (step (s.withFetchWord 16 w))).map f

/-- VA, VB and VF set. -/
def regs (a b f : Byte) (s : State) : State := setV (setV (setV s 0xA a) 0xB b) 0xF f

/-- VA, VB and VF read. -/
def abf (s : State) : Byte × Byte × Byte := (getV s 0xA, getV s 0xB, getV s 0xF)

/-- Bytes stored from `a`. -/
def bytes (a : Nat) (xs : List Byte) (s : State) : State := storeBytes s a xs

/-- `n` bytes read from `a`. -/
def read (a n : Nat) (s : State) : List Byte := (List.range n).map (fun k => memByte s (a + k))

/-- One key down. -/
def press (k : Fin 16) (s : State) : State := { s with key := s.key.set k true }

/-- One cell lit. -/
def light (x : Nat) (y : Fin 32) (s : State) : State := { s with fb := s.fb.set y (s.fb[y] ||| BitVec.twoPow 64 x) }


/-! ### Control flow (section 2.2 of the vectors) -/

/-- CF1. -/
theorem test_ret_pops : look 0x00EE { base with pc := 0x0400, sp := 2, stack := (base.stack.set 0 0x0206).set 1 0x030A }
    (fun s => (s.pc, s.sp, s.result)) = some (0x030A, 1, .ok) := by decide
/-- CF2. -/
theorem test_ret_underflow : look 0x00EE { base with pc := 0x0400 }
    (fun s => (s.pc, s.sp, s.result)) = some (0x0402, 0, .err .stackUnderflow) := by decide
/-- CF4. -/
theorem test_jp_top : look 0x1FFF base
    (fun s => (s.pc, s.result)) = some (0x0FFF, .ok) := by decide
/-- CF5. -/
theorem test_call_last_entry : look 0x2ABC { base with pc := 0x0FFE, sp := 11 }
    (fun s => (s.stack.drop 11, s.sp, s.pc, s.result)) = some ([0x1000], 12, 0x0ABC, .ok) := by decide
/-- CF6. -/
theorem test_call_overflow : look 0x2ABC { base with pc := 0x0300, sp := 12 }
    (fun s => (s.pc, s.sp, s.result)) = some (0x0302, 12, .err .stackOverflow) := by decide
/-- CF7. -/
theorem test_seImm_skips : look 0x3F01 (regs 0 0 1 base)
    (fun s => (s.pc, s.result)) = some (0x0204, .ok) := by decide
/-- CF14. -/
theorem test_seImm_past_the_end : look 0x3000 { base with pc := 0x0FFE }
    (fun s => (s.pc, s.result)) = some (0x1002, .ok) := by decide
/-- CF9. -/
theorem test_sneImm_equal : look 0x4A00 base
    (fun s => (s.pc, s.result)) = some (0x0202, .ok) := by decide
/-- CF9b. -/
theorem test_sneImm_differs : look 0x4A00 (regs 1 0 0 base)
    (fun s => (s.pc, s.result)) = some (0x0204, .ok) := by decide
/-- CF10. -/
theorem test_seReg_alias : look 0x5AB7 (regs 9 9 0 base)
    (fun s => (s.pc, s.result)) = some (0x0204, .ok) := by decide
/-- CF10b. -/
theorem test_seReg_differs : look 0x5AB0 (regs 9 8 0 base)
    (fun s => (s.pc, s.result)) = some (0x0202, .ok) := by decide
/-- CF11. -/
theorem test_sneReg_same : look 0x9AA0 (regs 9 0 0 base)
    (fun s => (s.pc, s.result)) = some (0x0202, .ok) := by decide
/-- X7. -/
theorem test_sneReg_alias : look 0x9AB5 (regs 1 2 0 base)
    (fun s => (s.pc, s.result)) = some (0x0204, .ok) := by decide
/-- CF12. -/
theorem test_jpV0_not_reduced : look 0xBFFF (setV base 0 0xFF)
    (fun s => (s.pc, s.result)) = some (0x10FE, .ok) := by decide
/-- CF13. -/
theorem test_jpV0_odd : look 0xB201 (setV base 0 0x02)
    (fun s => (s.pc, s.result)) = some (0x0203, .ok) := by decide

/-! ### Registers and ALU (section 2.3) -/

/-- A1. -/
theorem test_ldImm_flag : look 0x6FAB (regs 0 0 0 base)
    (fun s => (abf s, s.pc, s.result)) = some ((0, 0, 0xAB), 0x0202, .ok) := by decide
/-- A2b. -/
theorem test_addImm_carry_dropped : look 0x7A01 (regs 0xFF 0 0x55 base)
    (fun s => (abf s, s.pc, s.result)) = some ((0, 0, 0x55), 0x0202, .ok) := by decide
/-- A3. -/
theorem test_addImm_on_flag : look 0x7F01 (regs 0 0 0xFF base)
    (fun s => (abf s, s.pc, s.result)) = some ((0, 0, 0), 0x0202, .ok) := by decide
/-- A28. -/
theorem test_ldReg : look 0x8AB0 (regs 0 0x42 0 base)
    (fun s => (abf s, s.pc, s.result)) = some ((0x42, 0x42, 0), 0x0202, .ok) := by decide
/-- A23. -/
theorem test_or_keeps_flag : look 0x8AB1 (regs 0xF0 0x0F 0x55 base)
    (fun s => (abf s, s.pc, s.result)) = some ((0xFF, 0x0F, 0x55), 0x0202, .ok) := by decide
/-- A24. -/
theorem test_and_keeps_flag : look 0x8AB2 (regs 0xF3 0x3C 0x55 base)
    (fun s => (abf s, s.pc, s.result)) = some ((0x30, 0x3C, 0x55), 0x0202, .ok) := by decide
/-- A25. -/
theorem test_xor_same : look 0x8AA3 (regs 0xF3 0 0x55 base)
    (fun s => (abf s, s.pc, s.result)) = some ((0, 0, 0x55), 0x0202, .ok) := by decide
/-- A4, source property S4. -/
theorem test_addReg_carry : look 0x8AB4 (regs 0xFF 1 0 base)
    (fun s => (abf s, s.pc, s.result)) = some ((0, 1, 1), 0x0202, .ok) := by decide
/-- A6. -/
theorem test_addReg_on_flag : look 0x8FA4 (regs 0x20 0 0xF0 base)
    (fun s => (abf s, s.pc, s.result)) = some ((0x20, 0, 0x10), 0x0202, .ok) := by decide
/-- A11. -/
theorem test_sub_equal : look 0x8AB5 (regs 0x0A 0x0A 1 base)
    (fun s => (abf s, s.pc, s.result)) = some ((0, 0x0A, 0), 0x0202, .ok) := by decide
/-- A13. -/
theorem test_sub_on_flag : look 0x8FA5 (regs 3 0 9 base)
    (fun s => (abf s, s.pc, s.result)) = some ((3, 0, 0xFE), 0x0202, .ok) := by decide
/-- A15. -/
theorem test_shr_ignores_y : look 0x8AB6 (regs 5 0xFF 0 base)
    (fun s => (abf s, s.pc, s.result)) = some ((2, 0xFF, 1), 0x0202, .ok) := by decide
/-- A16. -/
theorem test_shr_on_flag : look 0x8FB6 (regs 0 0 3 base)
    (fun s => (abf s, s.pc, s.result)) = some ((0, 0, 0), 0x0202, .ok) := by decide
/-- A18. -/
theorem test_subn_borrow : look 0x8AB7 (regs 0x0A 5 1 base)
    (fun s => (abf s, s.pc, s.result)) = some ((0xFB, 5, 0), 0x0202, .ok) := by decide
/-- A20. -/
theorem test_subn_by_flag : look 0x8AF7 (regs 0 0 9 base)
    (fun s => (abf s, s.pc, s.result)) = some ((1, 0, 1), 0x0202, .ok) := by decide
/-- A21. -/
theorem test_shl_out : look 0x8ABE (regs 0x81 0 0 base)
    (fun s => (abf s, s.pc, s.result)) = some ((2, 0, 1), 0x0202, .ok) := by decide
/-- A22. -/
theorem test_shl_on_flag : look 0x8FBE (regs 0 0 0x80 base)
    (fun s => (abf s, s.pc, s.result)) = some ((0, 0, 2), 0x0202, .ok) := by decide
/-- A26. -/
theorem test_rnd_masked : look 0xCA0F (withInputs 0 0xB7 base)
    (fun s => (abf s, s.result)) = some ((0x07, 0, 0), .ok) := by decide
/-- A27. -/
theorem test_rnd_zero_mask : look 0xCA00 (withInputs 0 0xFF (regs 0x33 0 0 base))
    (fun s => (abf s, s.result)) = some ((0, 0, 0), .ok) := by decide

/-! ### Index register and memory (section 2.4) -/

/-- I1. -/
theorem test_ldI : look 0xAFFF (setI base 0x1234)
    (fun s => (s.i, s.result)) = some (0x0FFF, .ok) := by decide
/-- I2. -/
theorem test_addI_not_masked : look 0xFA1E (setI (regs 1 0 0 base) 0x0FFF)
    (fun s => (s.i, getV s 0xF, s.result)) = some (0x1000, 0, .ok) := by decide
/-- I3. -/
theorem test_addI_wraps : look 0xFA1E (setI (regs 2 0 0 base) 0xFFFF)
    (fun s => (s.i, s.result)) = some (0x0001, .ok) := by decide
/-- I4. -/
theorem test_ldFont_digit : look 0xFA29 (regs 0x0F 0 0 base)
    (fun s => (s.i, s.result)) = some (0x009B, .ok) := by decide
/-- I6. -/
theorem test_ldFont_not_masked : look 0xFA29 (regs 0xFF 0 0 base)
    (fun s => (s.i, s.result)) = some (0x054B, .ok) := by decide
/-- I7. -/
theorem test_ldBcd_at_the_end : look 0xFA33 (setI (regs 0xFF 0 0 base) 0x0FFD)
    (fun s => (read 0xFFD 3 s, s.result)) = some ([2, 5, 5], .ok) := by decide
/-- I8. -/
theorem test_ldBcd_bounds : look 0xFA33 (setI (regs 0xFF 0 0 base) 0x0FFE)
    (fun s => (read 0xFFE 2 s, s.pc, s.result)) = some ([0, 0], 0x0202, .err .memoryBounds) := by decide
/-- I10. -/
theorem test_store_at_the_end : look 0xF255 (setI (setV (setV (setV base 0 1) 1 2) 2 3) 0x0FFD)
    (fun s => (read 0xFFD 3 s, s.i, s.result)) = some ([1, 2, 3], 0x0FFD, .ok) := by decide
/-- I17. -/
theorem test_store_over_the_font : look 0xF055 (setI (setV base 0 0xAA) 0x0050)
    (fun s => (read 0x050 2 s, s.result)) = some ([0xAA, 0x90], .ok) := by decide
/-- X8: no wrap to address 0. -/
theorem test_store_bounds : look 0xF155 (setI (setV base 0 7) 0x1000)
    (fun s => (read 0 2 s, s.result)) = some ([0, 0], .err .memoryBounds) := by decide
/-- I13. -/
theorem test_load_bounds : look 0xF165 (setI (bytes 0xFFF [0x77] base) 0x0FFF)
    (fun s => (getV s 0, s.result)) = some (0, .err .memoryBounds) := by decide
/-- I15: the default FONT. -/
theorem test_load_font : look 0xFF65 (setI base 0x0050)
    (fun s => (s.v.toList, s.i)) = some 
      ([0xF0, 0x90, 0x90, 0x90, 0xF0, 0x20, 0x60, 0x20, 0x20, 0x70, 0xF0, 0x10, 0xF0, 0x80, 0xF0, 0xF0], 0x0050) := by decide

/-! ### Display (section 2.5) -/

/-- G2. -/
theorem test_cls_blank_screen : look 0x00E0 base
    (fun s => (cell s 0, s.fbChanged, s.result)) = some (false, true, .ok) := by decide
/-- G3. -/
theorem test_cls_zeroed_memory : look 0x0000 (light 7 0 base)
    (fun s => (cell s 7, s.fbChanged)) = some (false, true) := by decide
/-- G6 (the origin wraps), G9 (the bottom edge clips), G14 (collision). -/
theorem test_drw_draws :
    look 0xDAB1 (setI (bytes 0x300 [0xC0] (regs 67 34 0 base)) 0x0300)
      (fun s => (s.fb == (light 4 2 (light 3 2 base)).fb, getV s 0xF, s.fbChanged)) = some (true, 0, true) ∧
    look 0xDAB3 (setI (bytes 0x300 [0x80, 0x80, 0x80] (regs 0 30 0 base)) 0x0300)
      (fun s => (s.fb == (light 0 31 (light 0 30 base)).fb, getV s 0xF)) = some (true, 0) ∧
    look 0xDAB2 (setI (bytes 0x300 [0xA0, 0x40] (light 1 0 (light 2 0 (regs 1 0 0 base)))) 0x0300)
      (fun s => (s.fb == (light 2 1 (light 3 0 (light 2 0 base))).fb, getV s 0xF)) = some (true, 1) := by decide
/-- G8 (all clipped), G10 (no row), G17 (a clipped row is still checked). -/
theorem test_drw_ends :
    look 0xDAB1 (setI (bytes 0x300 [0x7F] (regs 63 0 5 base)) 0x0300)
      (fun s => (s.fb == base.fb, getV s 0xF, s.fbChanged)) = some (true, 0, false) ∧
    look 0xDAB0 (setI (regs 0 0 1 base) 0xFFF0) (fun s => (getV s 0xF, s.fbChanged, s.result)) =
      some (0, false, .ok) ∧
    look 0xDAB2 (setI (bytes 0xFFF [0xFF] (regs 0 31 7 base)) 0x0FFF)
      (fun s => (s.fb == base.fb, getV s 0xF, s.fbChanged, s.result)) =
      some (true, 7, false, .err .memoryBounds) := by decide
/-- Log entry 20: no machine meets R213 (a), (b) and the VF clause of (c). For a draw of any visible sprite, `m` its set bits,
that toggles as (a) says and sets VF as (b) says, the clause of (c) fails, on the screen where exactly `m` is lit. -/
theorem no_draw_meets_r213_a_b_and_c {m : Nat → Bool} (hm : ∃ k, m k = true)
    (newFb : (Nat → Bool) → Nat → Bool) (vfSet : (Nat → Bool) → Bool)
    (ha : ∀ fb k, newFb fb k = (fb k ^^ m k)) (hb : ∀ fb, vfSet fb = true ↔ ∃ k, m k = true ∧ fb k = true) :
    ¬∀ fb, (vfSet (newFb fb) = true ↔ ∃ k, m k = true) := by
  intro hc
  obtain ⟨k, hk, hl⟩ := (hb _).1 ((hc m).2 hm)
  rw [ha, hk] at hl
  cases hl

/-- Log entry 20: both draws of a visible sprite on a lit cell; R212 gives VF = 0 after the second, where R213 (c) says 1. -/
theorem test_second_draw_on_a_lit_cell :
    ((nextOf (exec (.drw 0xA 0xB 0x1) (setI (bytes 0x300 [0x80] (light 0 0 base)) 0x0300))).bind
      (fun t => nextOf (exec (.drw 0xA 0xB 0x1) t))).map (fun u => (cell u 0, getV u 0xF)) = some (true, 0) := by decide

/-! ### Keys and timers (section 2.6) -/

/-- K3. -/
theorem test_skp_low_nibble : look 0xEA9E (press 10 (regs 0x1A 0 0 base))
    (fun s => (s.pc, s.result)) = some (0x0204, .ok) := by decide
/-- K2. -/
theorem test_skp_other_key : look 0xEA9E (press 4 (regs 5 0 0 base))
    (fun s => (s.pc, s.result)) = some (0x0202, .ok) := by decide
/-- K4. -/
theorem test_sknp_pressed : look 0xEAA1 (press 5 (regs 5 0 0 base))
    (fun s => (s.pc, s.result)) = some (0x0202, .ok) := by decide
/-- K5. -/
theorem test_sknp_released : look 0xEAA1 (regs 5 0 0 base)
    (fun s => (s.pc, s.result)) = some (0x0204, .ok) := by decide
/-- K8. -/
theorem test_ldFromDT_after_tick : look 0xFA07 { withInputs 1000 0 base with dt := 0x2D }
    (fun s => (getV s 0xA, s.dt, s.tickRef)) = some (0x2C, 0x2C, 1000) := by decide
/-- K12. -/
theorem test_ldKey_lowest : look 0xFA0A (press 3 (press 9 (press 15 (regs 0x33 0 0 base))))
    (fun s => (getV s 0xA, s.pc)) = some (3, 0x0202) := by decide
/-- K11. -/
theorem test_ldKey_waits : look 0xFA0A { withInputs 1000 0 (regs 0x33 0 0 base) with dt := 4, st := 1 }
    (fun s => (s.pc, getV s 0xA, s.dt, s.st, s.tickRef)) = some (0x0200, 0x33, 3, 0, 1000) := by decide
/-- K9. -/
theorem test_ldToDT_after_tick : look 0xFA15 { withInputs 1000 0 (regs 0x3C 0 0 base) with dt := 7 }
    (fun s => (s.dt, s.tickRef)) = some (0x3C, 1000) := by decide
/-- K10. -/
theorem test_ldToST_no_tick : look 0xFA18 (withInputs 999 0 (regs 2 0 0 base))
    (fun s => (s.st, tone s, s.tickRef)) = some (2, true, 0) := by decide
/-- T3. -/
theorem test_tick_one_decrement : look 0x8000 { withInputs 60000 0 base with dt := 9, st := 9 }
    (fun s => (s.dt, s.st, s.tickRef)) = some (8, 8, 60000) := by decide
/-- T2. -/
theorem test_tick_floor : look 0x8000 (withInputs 5000 0 base)
    (fun s => (s.dt, s.st, s.tickRef)) = some (0, 0, 5000) := by decide
/-- T5. -/
theorem test_tick_backwards : look 0x8000 { withInputs 400 0 base with dt := 9, st := 9, tickRef := 500 }
    (fun s => (s.dt, s.st, s.tickRef)) = some (9, 9, 500) := by decide

/-! ### Fetch, undefined words, errors (sections 2.1 and 2.7) -/

/-- E1. -/
theorem test_fetch_fails : (nextOf (step { withInputs 1000 0 base with pc := 0x0FFF, dt := 3 })).map
    (fun s => (s.dt, s.tickRef, s.pc, s.result)) = some (2, 1000, 0x0FFF, .err .memoryBounds) := by decide
/-- E2. -/
theorem test_fetch_last_word : look 0x1200 { base with pc := 0x0FFE }
    (fun s => (s.pc, s.result)) = some (0x0200, .ok) := by decide
/-- X3: no skip. -/
theorem test_undefined_word : look 0xEA00 (press 5 (regs 5 0 0 base))
    (fun s => (s.pc, abf s, s.result)) = some (0x0202, (5, 0, 0), .ok) := by decide
/-- X1. -/
theorem test_undefined_keeps_screen : look 0x00E1 (light 3 0 base)
    (fun s => (s.pc, cell s 3, s.fbChanged)) = some (0x0202, true, false) := by decide
/-- R122 item 5: the driver that halts. -/
theorem test_halting_driver : haltOnErr (exec (.ret 0x0 0xE) base) = .fault .stackUnderflow := by rfl

/-! ### The driver's operations (section 1, S1 and S2) -/

/-- S1. -/
theorem test_load_round_trip : (nextOf (loadOp [0x12, 0x34, 0xAB] true State.reset)).map
    (fun s => (read 0x1FF 5 s, s.pc, s.result)) = some ([0x00, 0x12, 0x34, 0xAB, 0x00], 0x0200, .ok) := by decide
/-- S1. -/
theorem test_load_unreadable : (nextOf (loadOp [0x12] false State.reset)).map (fun s => (read 0x200 1 s, s.loadOpen, s.result)) =
    some ([0x00], true, .err .loadError) := by decide
/-- S2. -/
theorem test_font_in_place : [0x04F, 0x050, 0x051, 0x055, 0x09F, 0x0A0].map (memByte State.reset) =
    [0x00, 0xF0, 0x90, 0x20, 0x80, 0x00] := by decide
/-- R210. -/
theorem test_cell_of_pixel : [65, 66, 67].map (cell (light 2 1 base)) = [false, true, false] := by decide

/-! ### Other parameters (R5): an engine with 16 stack entries, another font and SHIFT_USES_VY -/

/-- The reset state of an engine with other parameters. -/
def other : State :=
  withInputs 0 0x00 (State.resetAt { font := Vector.replicate 80 0x3C, stackCapacity := 16, shiftUsesVY := true } 0 0)

/-- Program P7: with STACK_CAPACITY = 16 the 13th call is no error. -/
theorem test_params_capacity : look 0x2ABC { other with sp := 12 }
    (fun s => (s.sp, s.stack.length, s.result)) = some (13, 16, .ok) := by decide
/-- R31: the font table holds FONT. -/
theorem test_params_font : [0x04F, 0x050, 0x09F, 0x0A0].map (memByte other) = [0x00, 0x3C, 0x3C, 0x00] := by decide
/-- G3: V[Y] is shifted. -/
theorem test_params_shift :
    look 0x8AB6 (regs 0xFF 0x05 0 other) abf = some (0x02, 0x05, 0x01) ∧
    look 0x8ABE (regs 0x00 0x81 0 other) abf = some (0x02, 0x81, 0x01) := by decide

/-! ### Witnesses: for each statement with hypotheses, a state and operands that meet them -/

/-- `s` with the word `w` at PC. -/
def at' (w : Nat) (s : State) : State := s.withFetchWord 16 w

/-- 0x2300 at 0x200 and 0x00EE at 0x300. -/
def callRet : State := bytes 0x200 [0x23, 0x00] (bytes 0x300 [0x00, 0xEE] base)

/-- A full stack. -/
def full : State := { base with sp := 12 }

theorem witness_encode_of_decode : decodeWord 0xD015 = .ok (.drw 0x0 0x1 0x5) := by rfl

theorem witness_undefined_words :
    decodeWord 0x0001 = .error (.undefinedGroup0 0x1) ∧ decodeWord 0x800F = .error (.undefinedGroup8 0xF) ∧
    decodeWord 0xE190 = .error (.undefinedGroupE 0x90) ∧ decodeWord 0xFFFF = .error (.undefinedGroupF 0xFF) :=
  ⟨rfl, rfl, rfl, rfl⟩

theorem witness_next_is : NextIs (at' 0x8AB4 base) (.addReg 0xA 0xB) := ⟨0x8AB4, ⟨by decide, by decide⟩, rfl⟩

theorem witness_fetch :
    ({ base with pc := 0x0FFF } : State).pc.toNat + 1 > 4095 ∧
    ({ base with pc := 0x0FFE } : State).pc.toNat + 1 ≤ 4095 ∧
    (0x00F0 : Word).toNat = (memByte base 0x4F).toNat * 256 + (memByte base 0x50).toNat := by decide

theorem witness_undefined_at_pc :
    WordAtPc (at' 0x8AB8 base) 0x8AB8 ∧ decodeWord 0x8AB8 = .error (.undefinedGroup8 0x8) :=
  ⟨⟨by decide, by decide⟩, rfl⟩

theorem witness_tick_due : TickDue (withInputs 1000 0 base) ∧ ¬TickDue (withInputs 999 0 base) := by
  constructor <;> unfold TickDue <;> decide

theorem witness_step_next : ∃ t, step (at' 0x8000 base) = .next t := ⟨_, rfl⟩

theorem witness_timers :
    NextIs (at' 0xFA15 base) (.ldToDT 0xA) ∧ NextIs (at' 0xFA18 base) (.ldToST 0xA) ∧
    NextIs (at' 0xFA07 base) (.ldFromDT 0xA) ∧
    (∀ x, ¬NextIs (at' 0x8000 base) (.ldToDT x)) ∧ ∀ x, ¬NextIs (at' 0x8000 base) (.ldToST x) := by
  have h : NextIs (at' 0x8000 base) (.ldReg 0x0 0x0) := ⟨0x8000, ⟨by decide, by decide⟩, rfl⟩
  exact ⟨⟨0xFA15, ⟨by decide, by decide⟩, rfl⟩, ⟨0xFA18, ⟨by decide, by decide⟩, rfl⟩,
    ⟨0xFA07, ⟨by decide, by decide⟩, rfl⟩, fun x hx => (by simp : Instr.ldReg 0x0 0x0 ≠ .ldToDT x) (h.unique hx),
    fun x hx => (by simp : Instr.ldReg 0x0 0x0 ≠ .ldToST x) (h.unique hx)⟩

theorem witness_failing : exec (.ret 0x0 0xE) base = .next { base with result := .err .stackUnderflow } := by rfl

theorem witness_overflow :
    (∃ t, exec (.call 0xABC) full = .next t ∧ t.result = .err .stackOverflow) ∧
    ∃ t, exec (.call 0xABC) { base with sp := 11 } = .next t ∧ t.result = .ok := ⟨⟨_, rfl, rfl⟩, ⟨_, rfl, rfl⟩⟩

theorem witness_underflow :
    (∃ t, exec (.ret 0x0 0xE) base = .next t ∧ t.result = .err .stackUnderflow) ∧
    ∃ t, exec (.ret 0x0 0xE) { base with sp := 1 } = .next t ∧ t.result = .ok := ⟨⟨_, rfl, rfl⟩, ⟨_, rfl, rfl⟩⟩

/-- The five situations of R254, each at its first value, and beside each the last value that is no error. -/
theorem witness_memory_bounds :
    (nextOf (step { base with pc := 0x0FFF })).map State.result = some (.err .memoryBounds) ∧
    look 0x8000 { base with pc := 0x0FFE } State.result = some .ok ∧
    look 0xD001 (setI base 0x1000) State.result = some (.err .memoryBounds) ∧
    look 0xD001 (setI base 0x0FFF) State.result = some .ok ∧
    look 0xF033 (setI base 0x0FFE) State.result = some (.err .memoryBounds) ∧
    look 0xF033 (setI base 0x0FFD) State.result = some .ok ∧
    look 0xFF55 (setI base 0x0FF1) State.result = some (.err .memoryBounds) ∧
    look 0xFF55 (setI base 0x0FF0) State.result = some .ok ∧
    look 0xFF65 (setI base 0x0FF1) State.result = some (.err .memoryBounds) ∧
    look 0xFF65 (setI base 0x0FF0) State.result = some .ok := by decide

/-- A step that changes I, SP and the stack, a byte of memory, a cell of the framebuffer. -/
theorem witness_writers :
    look 0xA123 base (fun t => decide (t.i ≠ base.i)) = some true ∧
    look 0x2ABC base (fun t => decide (t.sp ≠ base.sp) && decide (t.stack ≠ base.stack)) = some true ∧
    look 0x00EE full (fun t => decide (t.sp ≠ full.sp) && decide (t.stack = full.stack)) = some true ∧
    look 0xFA33 (setI (regs 7 0 0 base) 0x300) (fun t => decide (memByte t 0x302 ≠ memByte base 0x302)) = some true ∧
    look 0x00E0 (light 5 3 base) (fun t => cell t 197 != cell (light 5 3 base) 197) = some true := by decide

theorem witness_changed_flag :
    look 0x8000 { base with fbChanged := true } State.fbChanged = some true ∧
    look 0x00E0 base (fun t => t.fbChanged != base.fbChanged) = some true := by decide

theorem witness_flag_written :
    (∃ t, exec (.addReg 0xA 0xB) (regs 0xFF 0x01 0x00 base) = .next t ∧
      getV t 0xF ≠ getV (regs 0xFF 0x01 0x00 base) 0xF) ∧
    ∃ t, exec (.load 0xF) (setI base 0x0050) = .next t ∧ getV t 0xF ≠ getV (setI base 0x0050) 0xF :=
  ⟨⟨_, rfl, by decide⟩, ⟨_, rfl, by decide⟩⟩

theorem witness_inv : Inv base :=
  ⟨memWf_nil, by decide, by decide, by decide, by decide, fun w hw => by rw [List.eq_of_mem_replicate hw]; decide⟩

/-- A state at the edge of the invariant (PC = 0x10FE, a full stack, a stack entry of 0x1000). -/
theorem witness_inv_edge :
    Inv { full with pc := 0x10FE, stack := base.stack.set 11 0x1000, mem := [(0xFFF, 0x01)] } :=
  ⟨by decide, by decide, by decide, by decide, by decide, fun w hw => by
    rcases List.mem_or_eq_of_mem_set hw with h | rfl
    · exact witness_inv.stackMax w h
    · decide⟩

theorem witness_legal_params : other.params.Legal ∧ ({ Config.params with stackCapacity := 1 } : Params).Legal := by
  decide

theorem witness_inv_step : Inv base ∧ ∃ t, step base = .next t := ⟨witness_inv, _, rfl⟩

theorem witness_inv_operation :
    Inv base ∧ (∃ t, perform (.load [0x12] true) base = .next t) ∧ (∃ t, perform (.reset 5) base = .next t) ∧
    (∃ t, perform (.step 7 0xB7) base = .next t) ∧ (∃ t, perform (.writeKeys base.key) base = .next t) ∧
    (∃ t, perform .ackDisplay base = .next t) ∧ (∃ t, perform .readFramebuffer base = .next t) ∧
    ∃ t, perform .tone base = .next t :=
  ⟨witness_inv, ⟨_, rfl⟩, ⟨_, rfl⟩, ⟨_, rfl⟩, ⟨_, rfl⟩, ⟨_, rfl⟩, ⟨_, rfl⟩, ⟨_, rfl⟩⟩

/-- On an engine with other parameters than this hardware's. -/
theorem witness_params_operation :
    (∃ t, perform (.reset 5) other = .next t) ∧ (∃ t, perform (.load [0x12] true) other = .next t) ∧
    ∃ t, perform (.step 7 0xB7) other = .next t := ⟨⟨_, rfl⟩, ⟨_, rfl⟩, ⟨_, rfl⟩⟩

/-- The longest program that fits, and the shortest that does not (R293). -/
theorem witness_load :
    State.reset.loadOpen = true ∧ MemWf State.reset.params.font State.reset.mem ∧
    0x200 + (List.replicate 3584 (0x5A : Byte)).length ≤ 4096 ∧
    0x200 + (List.replicate 3585 (0x5A : Byte)).length > 4096 := by
  refine ⟨rfl, memWf_nil, ?_, ?_⟩ <;> rw [List.length_replicate] <;> decide

theorem witness_load_refused :
    (∃ t, perform (.step 0 0) base = .next t) ∧ ∃ t, perform (.load [0x12] true) base = .next t ∧ t.result = .ok :=
  ⟨⟨_, rfl⟩, ⟨_, rfl, rfl⟩⟩

theorem witness_small_operations : tone { base with st := 1 } = true ∧ tone base = false := by decide

/-- The last place a sprite of one row can lie at, and the draw of no row. -/
theorem witness_double_draw :
    (0xA : Nibble) ≠ 0xF ∧ (0xB : Nibble) ≠ 0xF ∧ (setI base 0x0FFF).i.toNat + (0x1 : Nibble).toNat ≤ 4096 ∧
    (0x0 : Nibble) = 0 ∧ cell (setI base 0x0FFF) 0 = false ∧
    spriteBit (setI (bytes 0xFFF [0x80] base) 0x0FFF) 0 0 1 0 = true := by decide

theorem witness_call_return :
    ∃ t u, callRet.stack.length = callRet.params.stackCapacity ∧ callRet.sp < callRet.params.stackCapacity ∧
      NextIs callRet (.call 0x300) ∧ step callRet = .next t ∧ NextIs t (.ret 0x0 0xE) ∧ step t = .next u := by
  refine ⟨_, _, by decide, by decide,
    ⟨0x2300, ⟨by decide, by decide⟩, rfl⟩, rfl, ⟨0x00EE, ⟨by decide, by decide⟩, rfl⟩, rfl⟩

theorem witness_key_wait :
    NextIs (at' 0xFA0A base) (.ldKey 0xA) ∧ (∃ t, step (at' 0xFA0A base) = .next t) ∧
    (∀ j : Fin 16, (at' 0xFA0A base).key[j] = false) ∧
    (press 15 base).key[(15 : Fin 16)] = true ∧ (∀ j : Fin 16, j < 15 → (press 15 base).key[j] = false) ∧
    (press 0 base).key[(0 : Fin 16)] = true :=
  ⟨⟨0xFA0A, ⟨by decide, by decide⟩, rfl⟩, ⟨_, rfl⟩, by decide, by decide, by decide, by decide⟩

/-- A jump to its own address, and sums of the indexed jump on both sides of 0xFFE. -/
theorem witness_jumps :
    NextIs (at' 0x1200 base) (.jp 0x200) ∧ (at' 0x1200 base).pc.toNat = (0x200 : Addr).toNat ∧
    (0xFFF : Addr).toNat + (getV base 0x0).toNat > 0xFFE ∧ (0xFFE : Addr).toNat + (getV base 0x0).toNat = 0xFFE :=
  ⟨⟨0x1200, ⟨by decide, by decide⟩, rfl⟩, by decide, by decide, by decide⟩

/-- SP at both ends of each clause of 00EE and 2NNN. -/
theorem witness_stack_pointers :
    base.sp = 0 ∧ ({ base with sp := 1 } : State).sp = 0 + 1 ∧ 0 < base.stack.length ∧
    full.sp = 11 + 1 ∧ 11 < full.stack.length ∧ full.sp = full.params.stackCapacity ∧
    base.sp ≠ base.params.stackCapacity ∧ ({ base with sp := 11 } : State).sp ≠ base.params.stackCapacity := by decide

/-- Both values of the shift convention, and shifted registers that are and are not VF. -/
theorem witness_shifted_register :
    (0xA : Nibble) = (if base.params.shiftUsesVY = true then 0xF else 0xA) ∧
    (0xF : Nibble) = (if other.params.shiftUsesVY = true then 0xF else 0xA) := by decide

/-- The four cases of the subtractions, and X = F and X ≠ F of the other flag-writing instructions. -/
theorem witness_flag_forms :
    ((0xA : Nibble) ≠ 0xF ∧ (0xB : Nibble) ≠ 0xF) ∧ ((0xF : Nibble) = 0xF ∧ (0xE : Nibble) ≠ 0xF) := by decide

/-- The last index each store and load takes and the first it refuses, on a memory in canonical form. -/
theorem witness_ranges :
    MemWf base.params.font base.mem ∧ (setI base 4093).i.toNat + 2 ≤ 4095 ∧ (setI base 4094).i.toNat + 2 > 4095 ∧
    (setI base 4080).i.toNat + (0xF : Nibble).toNat ≤ 4095 ∧ (setI base 4081).i.toNat + (0xF : Nibble).toNat > 4095 ∧
    (setI base 4095).i.toNat + (0x0 : Nibble).toNat ≤ 4095 ∧ (setI base 4096).i.toNat + (0x0 : Nibble).toNat > 4095 :=
  ⟨memWf_nil, by decide, by decide, by decide, by decide, by decide, by decide⟩

/-- The clauses of the draw: no row at any index, the last index for 15 rows, the first too high for it and for one
row; a cell hit, a cell missed. -/
theorem witness_draw :
    (0x0 : Nibble).toNat = 0 ∧ (setI base 4081).i.toNat + (0xF : Nibble).toNat ≤ 4096 ∧
    (setI base 4082).i.toNat + (0xF : Nibble).toNat > 4096 ∧ (setI base 4096).i.toNat + (0x1 : Nibble).toNat > 4096 ∧
    (0x1 : Nibble).toNat ≥ 1 ∧ spriteBit (setI (bytes 0x300 [0x80] base) 0x300) 0 0 1 0 = true ∧
    cell (light 0 0 base) 0 = true ∧ cell base 0 = false := by decide

theorem witness_selected_key :
    (getV (regs 0x1A 0 0 base) 0xA).toNat % 16 = (10 : Fin 16).val ∧
    (getV (regs 0x0F 0 0 base) 0xA).toNat % 16 = (15 : Fin 16).val := by decide

theorem witness_equal_operands : getV (regs 9 9 0 base) 0xA = getV (regs 9 9 0 base) 0xB := by decide

/-- Words that meet the mask and value of a row of the opcode map, one for each format (`Encodes`). -/
theorem witness_rows :
    (0x0AB0 : Word) &&& 0xF00F = 0x0000 ∧ (0x0ABE : Word) &&& 0xF00F = 0x000E ∧ (0x1FFF : Word) &&& 0xF000 = 0x1000 ∧
    (0x3F01 : Word) &&& 0xF000 = 0x3000 ∧ (0x5AB7 : Word) &&& 0xF000 = 0x5000 ∧ (0x8FFE : Word) &&& 0xF00F = 0x800E ∧
    (0xDAB1 : Word) &&& 0xF000 = 0xD000 ∧ (0xEA9E : Word) &&& 0xF0FF = 0xE09E ∧ (0xFF65 : Word) &&& 0xF0FF = 0xF065 := by
  decide

end Sys2Proof.Tests
end

section
/-!
PROOFS about the state (10_state.md): what the execute phase writes, said once (`ExecEffect`), and from it who changes
which piece of state, who writes VF, and that a step keeps the invariant.
-/

namespace Sys2Proof.Machine

/-! ### What the execute phase can do -/

/-- The named destination of an instruction that writes one register and no flag: V[X] (R22). -/
def namedDest (i : Instr) : Option Nibble :=
  match i with
  | .ldImm x _ | .addImm x _ | .rnd x _ | .ldReg x _ | .or x _ | .and x _ | .xor x _ | .ldFromDT x | .ldKey x => some x
  | _ => none

/-- The instructions that write a flag and then V[X] (R22); DXYN, the sixth flag writer, has an effect of its own. -/
def FlagArith (i : Instr) (x y : Nibble) : Prop :=
  i = .addReg x y ∨ i = .sub x y ∨ i = .shr x y ∨ i = .subn x y ∨ i = .shl x y

/-- The draw of DXYN once its range is checked: VF reset, then the rows (R212 steps 3 and 4). -/
def drawSprite (x y n : Nibble) (s : State) : State :=
  drawRows (originX s x) (originY s y) n.toNat (setV s vF 0x00)

/-- DXYN is the range check and `drawSprite` (R212). -/
theorem execDrw_eq (x y n : Nibble) (s : State) :
    execDrw x y n s = whenInRange (baseAddr s) n.toNat s (drawSprite x y n s) := rfl

/-- A draw changes the registers, the framebuffer and the flag only. -/
theorem drawSprite_eq (x y n : Nibble) (s : State) : drawSprite x y n s =
    { s with v := (drawSprite x y n s).v, fb := (drawSprite x y n s).fb,
             fbChanged := (drawSprite x y n s).fbChanged } := drawRows_same ..

/-- Every way an instruction can end (R117): the fields it writes, a write's range or bound, and for all but the errors
and the writes to PC alone the instructions that end so. A byte or word that nothing here depends on is left open. -/
inductive ExecEffect (s : State) : Instr → State → Prop
  | raised {i} (e : Err) : ExecEffect s i { s with result := .err e }
  | register {i} (x : Nibble) (b : Byte) (hi : namedDest i = some x) : ExecEffect s i { setV s x b with result := .ok }
  | flagged {i x y} (f b : Byte) (hi : FlagArith i x y) :
      ExecEffect s i { setV (setV s vF f) x b with result := .ok }
  | load (x : Nibble) :
      ExecEffect s (.load x) { s with v := (loadRegs s (baseAddr s) (x.toNat + 1)).v, result := .ok }
  | skip {i} (c : Bool) : ExecEffect s i { skipIf c s with result := .ok }
  | jump {i} (a : Word) (ha : a.toNat ≤ 0x10FE) : ExecEffect s i { setPc s a with result := .ok }
  | wait (x : Nibble) : ExecEffect s (.ldKey x) { setPc s (s.pc - 2) with result := .ok }
  | ret (x y : Nibble) (hsp : s.sp ≠ 0) : ExecEffect s (.ret x y)
      { s with sp := s.sp - 1, pc := s.stack.getD (s.sp - 1) 0x0000, result := .ok }
  | call (a : Addr) (hsp : s.sp ≠ s.params.stackCapacity) : ExecEffect s (.call a)
      { s with stack := s.stack.set s.sp s.pc, sp := s.sp + 1, pc := zextAddr a, result := .ok }
  | delay (x : Nibble) : ExecEffect s (.ldToDT x) { s with dt := getV s x, result := .ok }
  | sound (x : Nibble) : ExecEffect s (.ldToST x) { s with st := getV s x, result := .ok }
  | index {i} (a : Word) (hi : (∃ b, i = .ldI b) ∨ (∃ x, i = .addI x) ∨ ∃ x, i = .ldFont x) :
      ExecEffect s i { setI s a with result := .ok }
  | store {i} (a : Nat) (xs : List Byte) (hi : (∃ x, i = .ldBcd x) ∨ ∃ x, i = .store x)
      (ha : a + xs.length ≤ Config.memSize) : ExecEffect s i { storeBytes s a xs with result := .ok }
  | clear (x y : Nibble) : ExecEffect s (.cls x y) { clearDisplay s with result := .ok }
  | draw (x y n : Nibble) : ExecEffect s (.drw x y n)
      { s with v := (drawSprite x y n s).v, fb := (drawSprite x y n s).fb,
               fbChanged := (drawSprite x y n s).fbChanged, result := .ok }

/-- An address of an instruction word fits in 12 bits (R83). -/
theorem toNat_zextAddr (a : Addr) : (zextAddr a).toNat = a.toNat := by
  simp only [zextAddr, BitVec.toNat_setWidth]; omega

/-- The highest target of BNNN is 0xFFF + 0xFF (R24, R148). -/
theorem toNat_indexedTarget_le (a : Addr) (b : Byte) : (zextAddr a + zextByte b).toNat ≤ 0x10FE := by
  have ha := a.isLt
  have hb := b.isLt
  have hbz : (zextByte b).toNat = b.toNat := by simp only [zextByte, BitVec.toNat_setWidth]; omega
  rw [BitVec.toNat_add, toNat_zextAddr, hbz]
  omega

/-- Each instruction ends in one of the ways of `ExecEffect`. -/
theorem exists_execEffect (i : Instr) (s : State) : ∃ t, exec i s = .next t ∧ ExecEffect s i t := by
  cases i with
  | cls x y => exact ⟨_, rfl, .clear x y⟩
  | ret x y =>
    by_cases h : s.sp = 0
    · exact ⟨_, execRet_empty x y h, .raised _⟩
    · exact ⟨_, execRet_live x y h, .ret x y h⟩
  | jp a => exact ⟨_, rfl, .jump _ (by rw [toNat_zextAddr]; omega)⟩
  | call a =>
    by_cases h : s.sp = s.params.stackCapacity
    · exact ⟨_, execCall_full a h, .raised _⟩
    · exact ⟨_, execCall_free a h, .call a h⟩
  | jpV0 a => exact ⟨_, rfl, .jump _ (toNat_indexedTarget_le a _)⟩
  | seImm x k => exact ⟨_, rfl, .skip _⟩
  | sneImm x k => exact ⟨_, rfl, .skip _⟩
  | seReg x y n => exact ⟨_, rfl, .skip _⟩
  | sneReg x y n => exact ⟨_, rfl, .skip _⟩
  | skp x => exact ⟨_, rfl, .skip _⟩
  | sknp x => exact ⟨_, rfl, .skip _⟩
  | ldImm x k => exact ⟨_, rfl, .register _ _ rfl⟩
  | addImm x k => exact ⟨_, rfl, .register _ _ rfl⟩
  | ldReg x y => exact ⟨_, rfl, .register _ _ rfl⟩
  | or x y => exact ⟨_, rfl, .register _ _ rfl⟩
  | and x y => exact ⟨_, rfl, .register _ _ rfl⟩
  | xor x y => exact ⟨_, rfl, .register _ _ rfl⟩
  | rnd x k => exact ⟨_, rfl, .register _ _ rfl⟩
  | ldFromDT x => exact ⟨_, rfl, .register _ _ rfl⟩
  | ldKey x =>
    cases h : leastKey s with
    | some k => exact ⟨_, execLdKey_some x s h, .register _ _ rfl⟩
    | none => exact ⟨_, execLdKey_none x s h, .wait x⟩
  | addReg x y => exact ⟨_, rfl, .flagged (y := y) _ _ (by simp [FlagArith])⟩
  | sub x y => exact ⟨_, rfl, .flagged (y := y) _ _ (by simp [FlagArith])⟩
  | shr x y => exact ⟨_, rfl, .flagged (y := y) _ _ (by simp [FlagArith])⟩
  | subn x y => exact ⟨_, rfl, .flagged (y := y) _ _ (by simp [FlagArith])⟩
  | shl x y => exact ⟨_, rfl, .flagged (y := y) _ _ (by simp [FlagArith])⟩
  | ldI a => exact ⟨_, rfl, .index _ (.inl ⟨a, rfl⟩)⟩
  | addI x => exact ⟨_, rfl, .index _ (.inr (.inl ⟨x, rfl⟩))⟩
  | ldFont x => exact ⟨_, rfl, .index _ (.inr (.inr ⟨x, rfl⟩))⟩
  | ldToDT x => exact ⟨_, rfl, .delay x⟩
  | ldToST x => exact ⟨_, rfl, .sound x⟩
  | drw x y n =>
    obtain ⟨-, h⟩ | ⟨-, h⟩ := whenInRange_cases (baseAddr s) n.toNat s (drawSprite x y n s)
    · exact ⟨_, (execDrw_eq x y n s).trans h, by rw [drawSprite_eq]; exact .draw x y n⟩
    · exact ⟨_, h, .raised _⟩
  | ldBcd x =>
    obtain ⟨hr, h⟩ | ⟨-, h⟩ := whenInRange_cases (baseAddr s) 3 s (storeBytes s (baseAddr s) (bcdDigits (getV s x)))
    · have hlen : (bcdDigits (getV s x)).length = 3 := rfl
      exact ⟨_, h, .store _ _ (.inl ⟨x, rfl⟩) (by simp only [hlen, Config.memSize]; omega)⟩
    · exact ⟨_, h, .raised _⟩
  | store x =>
    obtain ⟨hr, h⟩ | ⟨-, h⟩ := whenInRange_cases (baseAddr s) (x.toNat + 1) s
      (storeBytes s (baseAddr s) (firstRegs s (x.toNat + 1)))
    · exact ⟨_, h, .store _ _ (.inr ⟨x, rfl⟩) (by simp only [firstRegs_length, Config.memSize]; omega)⟩
    · exact ⟨_, h, .raised _⟩
  | load x =>
    obtain ⟨-, h⟩ | ⟨-, h⟩ := whenInRange_cases (baseAddr s) (x.toNat + 1) s
      (loadRegs s (baseAddr s) (x.toNat + 1))
    · exact ⟨_, h, by rw [loadRegs_eq]; exact .load x⟩
    · exact ⟨_, h, .raised _⟩

/-- WHAT AN INSTRUCTION CAN DO: the inversion of the execute phase. -/
theorem exec_effect {i : Instr} {s t : State} (h : exec i s = .next t) : ExecEffect s i t := by
  obtain ⟨u, hu, he⟩ := exists_execEffect i s
  cases hu.symm.trans h
  exact he

/-! ### The invariant (R39) -/

/-- The invariant speaks of memory, parameters, stack and SP, and of PC by its bound alone. -/
theorem Inv.of_eq {s t : State} (hs : Inv s) (hpc : t.pc.toNat ≤ 0x10FE) (hmem : t.mem = s.mem)
    (hparams : t.params = s.params) (hsp : t.sp = s.sp) (hstack : t.stack = s.stack) : Inv t where
  memWf := by rw [hmem, hparams]; exact hs.memWf
  pcMax := hpc
  legal := hparams ▸ hs.legal
  spMax := by rw [hsp, hparams]; exact hs.spMax
  stackLen := by rw [hstack, hparams]; exact hs.stackLen
  stackMax := hstack ▸ hs.stackMax

/-- Every entry of the stack is at most 0x1000, and so is what stands for an entry that does not exist. -/
theorem Inv.stackEntry_le {s : State} (hs : Inv s) (k : Nat) : (s.stack.getD k 0x0000).toNat ≤ 0x1000 := by
  by_cases hk : k < s.stack.length
  · rw [List.getD_eq_getElem?_getD, List.getElem?_eq_getElem hk, Option.getD_some]
    exact hs.stackMax _ (List.getElem_mem hk)
  · rw [List.getD_eq_getElem?_getD, List.getElem?_eq_none (Nat.le_of_not_lt hk), Option.getD_none]
    decide

/-- Pushing an address of at most 0x1000 on a stack that is not full keeps the invariant (R26, R143). -/
theorem Inv.push {s : State} (hs : Inv s) (hpc : s.pc.toNat ≤ 0x1000) (hsp : s.sp ≠ s.params.stackCapacity)
    {a : Word} (ha : a.toNat ≤ 0x10FE) (r : Result) :
    Inv { s with stack := s.stack.set s.sp s.pc, sp := s.sp + 1, pc := a, result := r } where
  memWf := hs.memWf
  pcMax := ha
  legal := hs.legal
  spMax := Nat.lt_of_le_of_ne hs.spMax hsp
  stackLen := List.length_set.trans hs.stackLen
  stackMax w hw := by
    obtain hw | rfl := List.mem_or_eq_of_mem_set hw
    · exact hs.stackMax w hw
    · exact hpc

/-- Popping keeps the invariant (R26, R141). -/
theorem Inv.pop {s : State} (hs : Inv s) (r : Result) :
    Inv { s with sp := s.sp - 1, pc := s.stack.getD (s.sp - 1) 0x0000, result := r } where
  memWf := hs.memWf
  pcMax := Nat.le_trans (hs.stackEntry_le _) (by decide)
  legal := hs.legal
  spMax := Nat.le_trans (Nat.sub_le _ _) hs.spMax
  stackLen := hs.stackLen
  stackMax := hs.stackMax

/-- A store inside memory keeps the invariant (R55). -/
theorem Inv.store {s : State} (hs : Inv s) {a : Nat} {xs : List Byte} (ha : a + xs.length ≤ Config.memSize)
    (r : Result) : Inv { storeBytes s a xs with result := r } where
  memWf := memWf_storeBytes hs.memWf ha
  pcMax := hs.pcMax
  legal := hs.legal
  spMax := hs.spMax
  stackLen := hs.stackLen
  stackMax := hs.stackMax

/-- Every instruction keeps the invariant from a state the fetch can leave: PC is two past an address whose word lies
in memory (R115), so a skip stays below, and FX0A does not wrap. -/
theorem ExecEffect.inv {i : Instr} {s t : State} (h : ExecEffect s i t) (hs : Inv s) (hlo : 2 ≤ s.pc.toNat)
    (hhi : s.pc.toNat ≤ 0x1000) : Inv t := by
  cases h with
  | skip c => exact hs.of_eq (by simp only [skipIf_pc]; split <;> bv_omega) rfl rfl rfl rfl
  | jump a ha => exact hs.of_eq ha rfl rfl rfl rfl
  | wait x => exact hs.of_eq (by simp only [setPc_pc]; bv_omega) rfl rfl rfl rfl
  | ret x y hsp => exact hs.pop _
  | call a hsp => exact hs.push hhi hsp (by rw [toNat_zextAddr]; omega) _
  | store a xs hi ha => exact hs.store ha _
  | raised | register | flagged | load | delay | sound | index | clear | draw => exact hs.of_eq hs.pcMax rfl rfl rfl rfl

theorem Inv.withResult {s : State} (hs : Inv s) (r : Result) : Inv { s with result := r } :=
  hs.of_eq hs.pcMax rfl rfl rfl rfl

theorem Inv.afterTick {s : State} (hs : Inv s) : Inv (timerTick s) := hs.of_eq hs.pcMax rfl rfl rfl rfl

theorem Inv.afterEnd {s : State} (hs : Inv s) : Inv (endStep s) := hs.of_eq hs.pcMax rfl rfl rfl rfl

/-- A fetch that succeeds moves PC up by 2 without wrapping (R115). -/
theorem toNat_pc_advancePc {s : State} (hp : s.pc.toNat + 1 ≤ 4095) : (advancePc s).pc.toNat = s.pc.toNat + 2 := by
  rw [advancePc_pc]; bv_omega

theorem Inv.afterAdvance {s : State} (hs : Inv s) (hp : s.pc.toNat + 1 ≤ 4095) : Inv (advancePc s) :=
  hs.of_eq (by rw [toNat_pc_advancePc hp]; omega) rfl rfl rfl rfl

/-- Settles O22: the three cases of a step. A failed fetch leaves PC; a fetch from at most 4094 advances it to at most
0x1000, and from there every effect of an instruction keeps the invariant. -/
theorem stepKeepsInvariant : Obligations.StepKeepsInvariant := by
  intro s t hs ht
  obtain ⟨-, h⟩ | ⟨w, e, hw, -, h⟩ | ⟨i, u, ⟨w, hw, -⟩, hu, h⟩ := step_cases s <;> cases h.symm.trans ht
  · exact (hs.afterTick.withResult _).afterEnd
  · exact ((hs.afterTick.afterAdvance hw.1).withResult _).afterEnd
  · have hp : (timerTick s).pc.toNat + 1 ≤ 4095 := hw.1
    have hpc := toNat_pc_advancePc hp
    exact ((exec_effect hu).inv (hs.afterTick.afterAdvance hp) (by omega) (by omega)).afterEnd

/-! ### The model's own fields and the keys -/

/-- Settles O12: no phase writes the keys or the parameters, and `endStep` alone writes the other fields, from a
counter that no phase before it changes. -/
theorem stepLeavesKeysAndRedrawsInputs : Obligations.StepLeavesKeysAndRedrawsInputs := by
  intro s t ht
  obtain ⟨-, h⟩ | ⟨_, _, -, -, h⟩ | ⟨i, u, -, hu, h⟩ := step_cases s <;> cases h.symm.trans ht
  · exact ⟨rfl, rfl, rfl, rfl, rfl, rfl⟩
  · exact ⟨rfl, rfl, rfl, rfl, rfl, rfl⟩
  · obtain ⟨u', hu', hkey, -, -, -, -, hdraws, hparams⟩ := exec_next i (advancePc (timerTick s))
    cases hu'.symm.trans hu
    simp [hkey, hdraws, hparams]

/-! ### Who changes what (R20) -/

/-- What can be seen of a state that no phase of a step but execute changes. -/
structure OnlyExecChanges {α : Type} (f : State → α) : Prop where
  timerTick : ∀ s, f (timerTick s) = f s := by intros; rfl
  advancePc : ∀ s, f (advancePc s) = f s := by intros; rfl
  result : ∀ s r, f { s with result := r } = f s := by intros; rfl
  endStep : ∀ s, f (endStep s) = f s := by intros; rfl

/-- Where a step changes something only execute can change, the next instruction is one whose effect changes it. -/
theorem exists_writer_of_step_ne {α : Type} {f : State → α} (hf : OnlyExecChanges f) {P : Instr → Prop}
    (hP : ∀ {i s t}, ExecEffect s i t → f t ≠ f s → P i) {s t : State} (ht : step s = .next t) (hne : f t ≠ f s) :
    ∃ i, NextIs s i ∧ P i := by
  obtain ⟨-, h⟩ | ⟨_, _, -, -, h⟩ | ⟨i, u, hi, hu, h⟩ := step_cases s <;> cases h.symm.trans ht
  · rw [hf.endStep, hf.result, hf.timerTick] at hne
    exact absurd rfl hne
  · rw [hf.endStep, hf.result, hf.advancePc, hf.timerTick] at hne
    exact absurd rfl hne
  · refine ⟨i, hi, hP (exec_effect hu) ?_⟩
    rwa [hf.advancePc, hf.timerTick, ← hf.endStep u]

section
variable {i : Instr} {s t : State} (h : ExecEffect s i t)
include h

theorem ExecEffect.index_writer (hne : t.i ≠ s.i) :
    (∃ a, i = .ldI a) ∨ (∃ x, i = .addI x) ∨ ∃ x, i = .ldFont x := by
  cases h with
  | index a hi => exact hi
  | _ => exact absurd rfl hne

theorem ExecEffect.sp_writer (hne : t.sp ≠ s.sp) : (∃ a, i = .call a) ∨ ∃ x y, i = .ret x y := by
  cases h with
  | call a hsp => exact .inl ⟨a, rfl⟩
  | ret x y hsp => exact .inr ⟨x, y, rfl⟩
  | _ => exact absurd rfl hne

theorem ExecEffect.stack_writer (hne : t.stack ≠ s.stack) : ∃ a, i = .call a := by
  cases h with
  | call a hsp => exact ⟨a, rfl⟩
  | _ => exact absurd rfl hne

theorem ExecEffect.memory_writer {a : Nat} (hne : memByte t a ≠ memByte s a) :
    (∃ x, i = .ldBcd x) ∨ ∃ x, i = .store x := by
  cases h with
  | store a xs hi ha => exact hi
  | _ => exact absurd rfl hne

theorem ExecEffect.display_writer {k : Nat} (hne : cell t k ≠ cell s k) :
    (∃ x y, i = .cls x y) ∨ ∃ x y n, i = .drw x y n := by
  cases h with
  | clear x y => exact .inl ⟨x, y, rfl⟩
  | draw x y n => exact .inr ⟨x, y, n, rfl⟩
  | _ => exact absurd rfl hne

end

/-- Settles O18: for each piece of state, the effect that changed it names its instruction. -/
theorem stateChangesOnlyByItsWriters : Obligations.StateChangesOnlyByItsWriters := by
  intro s t ht
  refine ⟨fun hne => ?_, fun hne => ?_, fun hne => ?_, fun ⟨a, hne⟩ => ?_, fun ⟨k, hne⟩ => ?_⟩
  · obtain ⟨i, hi, ⟨a, rfl⟩ | ⟨x, rfl⟩ | ⟨x, rfl⟩⟩ :=
      exists_writer_of_step_ne (f := State.i) {} (·.index_writer) ht hne
    · exact .inl ⟨a, hi⟩
    · exact .inr (.inl ⟨x, hi⟩)
    · exact .inr (.inr ⟨x, hi⟩)
  · obtain ⟨i, hi, ⟨a, rfl⟩ | ⟨x, y, rfl⟩⟩ := exists_writer_of_step_ne (f := State.sp) {} (·.sp_writer) ht hne
    · exact .inl ⟨a, hi⟩
    · exact .inr ⟨x, y, hi⟩
  · obtain ⟨i, hi, a, rfl⟩ := exists_writer_of_step_ne (f := State.stack) {} (·.stack_writer) ht hne
    exact ⟨a, hi⟩
  · obtain ⟨i, hi, ⟨x, rfl⟩ | ⟨x, rfl⟩⟩ := exists_writer_of_step_ne (f := (memByte · a)) {} (·.memory_writer) ht hne
    · exact .inl ⟨x, hi⟩
    · exact .inr ⟨x, hi⟩
  · obtain ⟨i, hi, ⟨x, y, rfl⟩ | ⟨x, y, n, rfl⟩⟩ :=
      exists_writer_of_step_ne (f := (cell · k)) {} (·.display_writer) ht hne
    · exact .inl ⟨x, y, hi⟩
    · exact .inr ⟨x, y, n, hi⟩

/-! ### Who writes VF (R22) -/

/-- The instructions whose named destination is VF. -/
theorem eq_of_namedDest_vF {i : Instr} (hi : namedDest i = some 0xF) :
    (∃ k, i = .ldImm 0xF k ∨ i = .addImm 0xF k ∨ i = .rnd 0xF k) ∨
    (∃ y, i = .ldReg 0xF y ∨ i = .or 0xF y ∨ i = .and 0xF y ∨ i = .xor 0xF y) ∨ i = .ldFromDT 0xF ∨ i = .ldKey 0xF := by
  cases i <;> cases hi
  all_goals simp

/-- Settles O20: of the effects that change registers, the flagged ones and the draw are the six flag writers', a
register write changes VF only as its named destination, and a block load only when VF is its last register. -/
theorem flagChangesOnlyByFlagWriters : Obligations.FlagChangesOnlyByFlagWriters := by
  intro i s t ht hne
  cases exec_effect ht with
  | flagged f b hi => exact .inl ⟨_, _, hi⟩
  | draw x y n => exact .inr (.inl ⟨x, y, n, rfl⟩)
  | register x b hi =>
    have hx : x = 0xF := Decidable.byContradiction fun hx => hne (getV_setV_ne s b hx)
    have hdest := eq_of_namedDest_vF (hx ▸ hi)
    exact .inr (.inr (hdest.imp_right (.imp_right (.imp_right .inl))))
  | load x =>
    have hx : x = 0xF := Decidable.byContradiction fun hx => by
      have hlt : ¬(0xF : Nibble).toNat < x.toNat + 1 := by bv_omega
      exact hne ((getV_loadRegs s _ _ (by omega) 0xF).trans (if_neg hlt))
    simp only [hx, or_true]
  | _ => exact absurd rfl hne

end Sys2Proof.Machine
end

section
/-!
PROOFS about the encoding (30_encoding.md): the decoder inverts the encoder, a word that decodes is the encoding of what
it decodes to, and the words that are no instruction are those of R90, which the machine runs as no-ops.
-/

namespace Sys2Proof

/-! ### Decoding what was encoded -/

/-- The decoder reads back the group, the secondary field and the operands that the encoder wrote. -/
theorem decodeWord_encode (i : Instr) : decodeWord (encode i) = .ok i := by
  cases i with
  | cls | ret => simp [encode, decodeWord, decodeGroup0]
  | ldReg | or | and | xor | addReg | sub | shr | subn | shl => simp [encode, decodeWord, decodeGroup8]
  | skp | sknp => simp [encode, decodeWord, decodeGroupE]
  | ldFromDT | ldKey | ldToDT | ldToST | addI | ldFont | ldBcd | store | load =>
    simp [encode, decodeWord, decodeGroupF]
  | _ => simp [encode, decodeWord]

/-- Settles O1: the bytes are those of the instruction's word, which decodes to it. -/
theorem decodeOfEncodeIsIdentity : Obligations.DecodeOfEncodeIsIdentity := by
  intro i rest
  rw [encodeBytes, decode_splitBytes, decodeWord_encode]
  rfl

/-! ### Encoding what was decoded -/

section
variable {w : Word} {g n : Nibble} {k : Byte} {i : Instr}

theorem wordOfNibbles_of_fields (hg : fieldGroup w = g) (hn : fieldN w = n) :
    wordOfNibbles g (fieldX w) (fieldY w) n = w := by
  rw [← hg, ← hn, wordOfNibbles_fields]

theorem wordOfImm_of_fields (hg : fieldGroup w = g) (hk : fieldImm w = k) : wordOfImm g (fieldX w) k = w := by
  rw [← hg, ← hk, wordOfImm_fields]

theorem wordOfAddr_of_group (hg : fieldGroup w = g) : wordOfAddr g (fieldAddr w) = w := by
  rw [← hg, wordOfAddr_fields]

theorem encode_of_decodeGroup0 (hg : fieldGroup w = 0x0#4) (h : decodeGroup0 w = .ok i) : encode i = w := by
  unfold decodeGroup0 at h
  split at h <;> cases h
  all_goals exact wordOfNibbles_of_fields hg ‹_›

theorem encode_of_decodeGroup8 (hg : fieldGroup w = 0x8#4) (h : decodeGroup8 w = .ok i) : encode i = w := by
  unfold decodeGroup8 at h
  split at h <;> cases h
  all_goals exact wordOfNibbles_of_fields hg ‹_›

theorem encode_of_decodeGroupE (hg : fieldGroup w = 0xE#4) (h : decodeGroupE w = .ok i) : encode i = w := by
  unfold decodeGroupE at h
  split at h <;> cases h
  all_goals exact wordOfImm_of_fields hg ‹_›

theorem encode_of_decodeGroupF (hg : fieldGroup w = 0xF#4) (h : decodeGroupF w = .ok i) : encode i = w := by
  unfold decodeGroupF at h
  split at h <;> cases h
  all_goals exact wordOfImm_of_fields hg ‹_›

/-- Group 0xF is the one the arms of the other fifteen leave. -/
theorem eq_groupF_of_not_mem : ∀ g : Nibble,
    g ∉ [0x0#4, 0x1#4, 0x2#4, 0x3#4, 0x4#4, 0x5#4, 0x6#4, 0x7#4, 0x8#4, 0x9#4, 0xA#4, 0xB#4, 0xC#4, 0xD#4, 0xE#4] →
    g = 0xF#4 := by
  decide

/-- What the dispatch on the group can do (R84): one of the four groups with a secondary field decodes the word, or the
word's group alone makes it an instruction, whose word it is. -/
theorem decodeWord_cases (w : Word) :
    (fieldGroup w = 0x0#4 ∧ decodeWord w = decodeGroup0 w) ∨
    (fieldGroup w = 0x8#4 ∧ decodeWord w = decodeGroup8 w) ∨
    (fieldGroup w = 0xE#4 ∧ decodeWord w = decodeGroupE w) ∨
    (fieldGroup w = 0xF#4 ∧ decodeWord w = decodeGroupF w) ∨
    (fieldGroup w ∉ [0x0#4, 0x8#4, 0xE#4, 0xF#4] ∧ ∃ i, decodeWord w = .ok i ∧ encode i = w) := by
  unfold decodeWord
  -- `h_k` is the arm of group `k - 1`.
  split
  case h_1 hg => exact .inl ⟨hg, rfl⟩
  case h_9 hg => exact .inr (.inl ⟨hg, rfl⟩)
  case h_15 hg => exact .inr (.inr (.inl ⟨hg, rfl⟩))
  case h_16 => exact .inr (.inr (.inr (.inl ⟨eq_groupF_of_not_mem _ (by simp_all), rfl⟩)))
  case h_2 hg | h_3 hg | h_11 hg | h_12 hg =>
    exact .inr (.inr (.inr (.inr ⟨by rw [hg]; decide, _, rfl, wordOfAddr_of_group hg⟩)))
  case h_4 hg | h_5 hg | h_7 hg | h_8 hg | h_13 hg =>
    exact .inr (.inr (.inr (.inr ⟨by rw [hg]; decide, _, rfl, wordOfImm_of_fields hg rfl⟩)))
  case h_6 hg | h_10 hg | h_14 hg =>
    exact .inr (.inr (.inr (.inr ⟨by rw [hg]; decide, _, rfl, wordOfNibbles_of_fields hg rfl⟩)))

end

/-- Settles O2: in each case of the dispatch the word is put together again from the fields it was decoded by. -/
theorem encodeOfDecodeIsIdentity : Obligations.EncodeOfDecodeIsIdentity := by
  intro w i h
  obtain ⟨hg, hd⟩ | ⟨hg, hd⟩ | ⟨hg, hd⟩ | ⟨hg, hd⟩ | ⟨-, j, hd, hj⟩ := decodeWord_cases w
  all_goals rw [hd] at h
  · exact encode_of_decodeGroup0 hg h
  · exact encode_of_decodeGroup8 hg h
  · exact encode_of_decodeGroupE hg h
  · exact encode_of_decodeGroupF hg h
  · exact Except.ok.inj h ▸ hj

/-! ### The undefined words (R90) -/

section
variable (w : Word)

theorem decodeGroup0_error_iff : (∃ e, decodeGroup0 w = .error e) ↔ fieldN w ∉ [0x0#4, 0xE#4] := by
  unfold decodeGroup0
  split <;> simp_all

theorem decodeGroup8_error_iff : (∃ e, decodeGroup8 w = .error e) ↔
    fieldN w ∉ [0x0#4, 0x1#4, 0x2#4, 0x3#4, 0x4#4, 0x5#4, 0x6#4, 0x7#4, 0xE#4] := by
  unfold decodeGroup8
  split <;> simp_all

/-- R90 lists the undefined values of N in group 0x8, R87 the defined ones. -/
theorem not_mem_group8_iff : ∀ n : Nibble, n ∉ [0x0#4, 0x1#4, 0x2#4, 0x3#4, 0x4#4, 0x5#4, 0x6#4, 0x7#4, 0xE#4] ↔
    n ∈ [0x8#4, 0x9#4, 0xA#4, 0xB#4, 0xC#4, 0xD#4, 0xF#4] := by
  decide

theorem decodeGroupE_error_iff : (∃ e, decodeGroupE w = .error e) ↔ fieldImm w ∉ [0x9E#8, 0xA1#8] := by
  unfold decodeGroupE
  split <;> simp_all

theorem decodeGroupF_error_iff : (∃ e, decodeGroupF w = .error e) ↔
    fieldImm w ∉ [0x07#8, 0x0A#8, 0x15#8, 0x18#8, 0x1E#8, 0x29#8, 0x33#8, 0x55#8, 0x65#8] := by
  unfold decodeGroupF
  split <;> simp_all

end

/-- Settles O3: each case of the dispatch meets one row of R90, and a word that its group makes an instruction none. -/
theorem undefinedWordsAreExactly : Obligations.UndefinedWordsAreExactly := by
  intro w
  change _ ↔ (fieldGroup w = 0x0#4 ∧ fieldN w ∉ _) ∨ (fieldGroup w = 0x8#4 ∧ fieldN w ∈ _) ∨
    (fieldGroup w = 0xE#4 ∧ fieldImm w ∉ _) ∨ (fieldGroup w = 0xF#4 ∧ fieldImm w ∉ _)
  obtain ⟨hg, hd⟩ | ⟨hg, hd⟩ | ⟨hg, hd⟩ | ⟨hg, hd⟩ | ⟨hg, i, hd, -⟩ := decodeWord_cases w
  · rw [hd, decodeGroup0_error_iff]; simp [hg]
  · rw [hd, decodeGroup8_error_iff, not_mem_group8_iff]; simp [hg]
  · rw [hd, decodeGroupE_error_iff]; simp [hg]
  · rw [hd, decodeGroupF_error_iff]; simp [hg]
  · simp_all

/-- Settles O4: nine fixed words, evaluated. -/
theorem sampleWordsDecodeAsTheMapSays : Obligations.SampleWordsDecodeAsTheMapSays := by
  unfold Obligations.SampleWordsDecodeAsTheMapSays
  decide

namespace Machine

/-- An undefined word does nothing and answers `OK` (R90). -/
theorem execWord_undefined {w : Word} {e : DecodeError} (h : decodeWord w = .error e) (s : State) :
    execWord w s = .next { s with result := .ok } := by
  rw [execWord, h]
  rfl

/-- Settles O8: the step fetches the word, which then does nothing to the state after the tick and the advance of PC. -/
theorem undefinedWordIsANoOp : Obligations.UndefinedWordIsANoOp := by
  intro s w e hw he
  rw [step_word hw, execWord_undefined he]
  rfl

end Machine

end Sys2Proof
end

section
/-!
PROOFS about the step cycle (40_step_cycle.md): what a step fetches and runs, that every step returns and with which
errors, what it does to the timers, and the interface's small operations.
-/

namespace Sys2Proof.Machine

/-! ### Fetch and execute -/

/-- A word that is an instruction is executed (R116, R117). -/
theorem execWord_decoded {w : Word} {i : Instr} (h : decodeWord w = .ok i) (s : State) : execWord w s = exec i s := by
  rw [execWord, h]

/-- Settles O6: the step fetches the word, which decodes to the instruction. -/
theorem stepRunsDecodedInstruction : Obligations.StepRunsDecodedInstruction := by
  intro s i ⟨w, hw, hi⟩
  rw [step_word hw, execWord_decoded hi]

/-- The word at PC is big-endian (R52). -/
theorem toNat_byteAppend (hi lo : Byte) : (hi ++ lo).toNat = hi.toNat * 256 + lo.toNat := by
  rw [BitVec.toNat_append, ← Nat.shiftLeft_add_eq_or_of_lt lo.isLt, Nat.shiftLeft_eq]

/-- The advance of PC is modulo 65536 (R115). -/
theorem advancePc_eq (s : State) : advancePc s = { s with pc := BitVec.ofNat 16 ((s.pc.toNat + 2) % 65536) } := by
  have hpc : s.pc + 2 = BitVec.ofNat 16 ((s.pc.toNat + 2) % 65536) := BitVec.eq_of_toNat_eq (by
    rw [BitVec.toNat_add, BitVec.toNat_ofNat, Nat.mod_mod]; rfl)
  rw [advancePc, setPc, hpc]

/-- Settles O7: a failed fetch ends the step; otherwise the word at PC is the one whose value the two bytes give. -/
theorem fetchReadsTwoBytesAndAdvances : Obligations.FetchReadsTwoBytesAndAdvances := by
  intro s
  refine ⟨step_fetchError, fun hp w hw => ?_⟩
  have hword : WordAtPc s w := ⟨hp, BitVec.eq_of_toNat_eq (hw.trans (toNat_byteAppend _ _).symm)⟩
  rw [step_word hword, advancePc_eq, timerTick_pc]

/-! ### Every step returns, and never with LoadError -/

/-- The errors of the execute phase: the instructions that raise each, and when (R252 to R254). -/
inductive ExecRaises (s : State) : Instr → Err → Prop
  | overflow (a : Addr) (h : s.sp = s.params.stackCapacity) : ExecRaises s (.call a) .stackOverflow
  | underflow (x y : Nibble) (h : s.sp = 0) : ExecRaises s (.ret x y) .stackUnderflow
  | draw (x y n : Nibble) (h : ¬(n.toNat = 0 ∨ baseAddr s + n.toNat ≤ 4096)) :
      ExecRaises s (.drw x y n) .memoryBounds
  | digits (x : Nibble) (h : ¬baseAddr s + 3 ≤ 4096) : ExecRaises s (.ldBcd x) .memoryBounds
  | store (x : Nibble) (h : ¬baseAddr s + (x.toNat + 1) ≤ 4096) : ExecRaises s (.store x) .memoryBounds
  | load (x : Nibble) (h : ¬baseAddr s + (x.toNat + 1) ≤ 4096) : ExecRaises s (.load x) .memoryBounds

/-- WHAT AN INSTRUCTION CAN RAISE: an error result is that of one of these instructions in its own situation. -/
theorem exec_raises {i : Instr} {s t : State} {e : Err} (h : exec i s = .next t) (he : t.result = .err e) :
    ExecRaises s i e := by
  cases i
  case call a =>
    by_cases hsp : s.sp = s.params.stackCapacity
    · cases (execCall_full a hsp).symm.trans h; cases he
      exact .overflow a hsp
    · cases (execCall_free a hsp).symm.trans h; cases he
  case ret x y =>
    by_cases hsp : s.sp = 0
    · cases (execRet_empty x y hsp).symm.trans h; cases he
      exact .underflow x y hsp
    · cases (execRet_live x y hsp).symm.trans h; cases he
  case ldKey x =>
    cases hk : leastKey s with
    | some k => cases (execLdKey_some x s hk).symm.trans h; cases he
    | none => cases (execLdKey_none x s hk).symm.trans h; cases he
  case drw x y n =>
    obtain ⟨-, hr⟩ | ⟨hn, hr⟩ := whenInRange_cases (baseAddr s) n.toNat s (drawSprite x y n s) <;>
      cases hr.symm.trans h <;> cases he
    exact .draw x y n hn
  case ldBcd x =>
    obtain ⟨-, hr⟩ | ⟨hn, hr⟩ := whenInRange_cases (baseAddr s) 3 s
      (storeBytes s (baseAddr s) (bcdDigits (getV s x))) <;> cases hr.symm.trans h <;> cases he
    exact .digits x (by omega)
  case store x =>
    obtain ⟨-, hr⟩ | ⟨hn, hr⟩ := whenInRange_cases (baseAddr s) (x.toNat + 1) s
      (storeBytes s (baseAddr s) (firstRegs s (x.toNat + 1))) <;> cases hr.symm.trans h <;> cases he
    exact .store x (by omega)
  case load x =>
    obtain ⟨-, hr⟩ | ⟨hn, hr⟩ := whenInRange_cases (baseAddr s) (x.toNat + 1) s
      (loadRegs s (baseAddr s) (x.toNat + 1)) <;> cases hr.symm.trans h <;> cases he
    exact .load x (by omega)
  all_goals cases h; cases he

/-- Settles O9: each case of a step answers a next state. A failed fetch is MemoryBoundsError, an undefined word is
`OK`, and LoadError is no error of the execute phase. -/
theorem everyStepReturns : Obligations.EveryStepReturns := by
  intro s
  obtain ⟨-, h⟩ | ⟨w, e, -, -, h⟩ | ⟨i, u, -, hu, h⟩ := step_cases s
  · exact ⟨_, h, by simp⟩
  · exact ⟨_, h, by simp⟩
  · exact ⟨_, h, fun he => nomatch exec_raises hu he⟩

/-! ### What a step does to the timers -/

/-- A step leaves as the tick left it what only the tick and execute can change and the next instruction does not. -/
theorem eq_timerTick_of_step {α : Type} {f : State → α} {s t : State} (ht : step s = .next t)
    (hexec : ∀ {i u v}, NextIs s i → ExecEffect u i v → f v = f u)
    (hadvance : ∀ s, f (advancePc s) = f s := by intros; rfl)
    (hresult : ∀ s r, f { s with result := r } = f s := by intros; rfl)
    (hend : ∀ s, f (endStep s) = f s := by intros; rfl) : f t = f (timerTick s) := by
  obtain ⟨-, h⟩ | ⟨_, _, -, -, h⟩ | ⟨i, u, hi, hu, h⟩ := step_cases s <;> cases h.symm.trans ht
  · rw [hend, hresult]
  · rw [hend, hresult, hadvance]
  · rw [hend, hexec hi (exec_effect hu), hadvance]

section
variable {i : Instr} {s t : State} (h : ExecEffect s i t)
include h

theorem ExecEffect.tickRef_eq : t.tickRef = s.tickRef := by cases h <;> rfl

theorem ExecEffect.soundTimer_eq (hno : ∀ x, i ≠ .ldToST x) : t.st = s.st := by
  cases h with
  | sound x => exact absurd rfl (hno x)
  | _ => rfl

theorem ExecEffect.delayTimer_eq (hno : ∀ x, i ≠ .ldToDT x) : t.dt = s.dt := by
  cases h with
  | delay x => exact absurd rfl (hno x)
  | _ => rfl

end

/-- Settles O11: no instruction writes the reference, FX18 alone writes ST and FX15 alone DT; these two and FX07 run on
the state the tick left, whose registers are those before the step. -/
theorem stepMovesTimersOnce : Obligations.StepMovesTimersOnce := by
  intro s t ht
  refine ⟨?_, fun hno => ?_, fun hno => ?_, fun x hx => ?_, fun x hx => ?_, fun x hx => ?_⟩
  · exact eq_timerTick_of_step (f := State.tickRef) ht fun _ h => h.tickRef_eq
  · exact eq_timerTick_of_step (f := State.st) ht fun hi h => h.soundTimer_eq fun x hx => hno x (hx ▸ hi)
  · exact eq_timerTick_of_step (f := State.dt) ht fun hi h => h.delayTimer_eq fun x hx => hno x (hx ▸ hi)
  · cases (stepRunsDecodedInstruction s _ hx).symm.trans ht
    rfl
  · cases (stepRunsDecodedInstruction s _ hx).symm.trans ht
    rfl
  · cases (stepRunsDecodedInstruction s _ hx).symm.trans ht
    exact getV_setV_self ..

/-! ### The small operations of the interface -/

/-- ReadFramebuffer gives cell `k` at index `k` (R123). -/
theorem readFramebuffer_getElem? (s : State) {k : Nat} (hk : k < 2048) :
    (readFramebuffer s).1[k]? = some (cell s k) := by
  simp [readFramebuffer, hk]

/-- Settles O27: the operations by their definitions, and pixel `(x, y)` is cell `x + 64 * y` of the framebuffer. -/
theorem smallOperationsOfTheInterface : Obligations.SmallOperationsOfTheInterface := by
  intro s k
  refine ⟨rfl, rfl, rfl, rfl, ?_, rfl, fun x y hx hy => ?_, ?_⟩
  · simp [readFramebuffer]
  · rw [readFramebuffer_getElem? s (by omega), cell_at s hx hy]
  · simp [tone, ← BitVec.toNat_inj]

end Sys2Proof.Machine
end

section
/-!
PROOFS about control flow (41_control_flow.md): the row of the opcode map each instruction lies in, what it does to PC,
SP and the stack, and that a return comes back to its call.
-/

namespace Sys2Proof.Machine

/-! ### Rows of the opcode map (R92) -/

/-- A word put together by the encoder decodes to the instruction it was put together from. -/
theorem decodeWord_of_encode_eq {i : Instr} {w : Word} (h : encode i = w) : decodeWord w = .ok i :=
  h ▸ decodeWord_encode i

theorem encodes_ret : Encodes 0xF00F 0x000E (fun w => .ret (w.extractLsb' 8 4) (w.extractLsb' 4 4)) := fun _ h =>
  decodeWord_of_encode_eq (wordOfNibbles_of_fields (fieldGroup_of_mask h rfl) (fieldN_of_mask h rfl))

theorem encodes_jp : Encodes 0xF000 0x1000 (fun w => .jp (w.extractLsb' 0 12)) := fun _ h =>
  decodeWord_of_encode_eq (wordOfAddr_of_group (fieldGroup_of_mask h rfl))

theorem encodes_call : Encodes 0xF000 0x2000 (fun w => .call (w.extractLsb' 0 12)) := fun _ h =>
  decodeWord_of_encode_eq (wordOfAddr_of_group (fieldGroup_of_mask h rfl))

theorem encodes_jpV0 : Encodes 0xF000 0xB000 (fun w => .jpV0 (w.extractLsb' 0 12)) := fun _ h =>
  decodeWord_of_encode_eq (wordOfAddr_of_group (fieldGroup_of_mask h rfl))

theorem encodes_seImm : Encodes 0xF000 0x3000 (fun w => .seImm (w.extractLsb' 8 4) (w.extractLsb' 0 8)) := fun _ h =>
  decodeWord_of_encode_eq (wordOfImm_of_fields (fieldGroup_of_mask h rfl) rfl)

theorem encodes_sneImm : Encodes 0xF000 0x4000 (fun w => .sneImm (w.extractLsb' 8 4) (w.extractLsb' 0 8)) := fun _ h =>
  decodeWord_of_encode_eq (wordOfImm_of_fields (fieldGroup_of_mask h rfl) rfl)

theorem encodes_seReg : Encodes 0xF000 0x5000
    (fun w => .seReg (w.extractLsb' 8 4) (w.extractLsb' 4 4) (w.extractLsb' 0 4)) := fun _ h =>
  decodeWord_of_encode_eq (wordOfNibbles_of_fields (fieldGroup_of_mask h rfl) rfl)

theorem encodes_sneReg : Encodes 0xF000 0x9000
    (fun w => .sneReg (w.extractLsb' 8 4) (w.extractLsb' 4 4) (w.extractLsb' 0 4)) := fun _ h =>
  decodeWord_of_encode_eq (wordOfNibbles_of_fields (fieldGroup_of_mask h rfl) rfl)

/-! ### Steps -/

/-- A step whose instruction ends in `u` ends in `u` after the interface's bookkeeping (R114). -/
theorem step_of_exec {s u : State} {i : Instr} (hi : NextIs s i) (hu : exec i (advancePc (timerTick s)) = .next u) :
    step s = .next (endStep u) := by
  rw [stepRunsDecodedInstruction s i hi, hu]
  rfl

/-- A bad PC shows at the next fetch (R115, R142, R148). -/
theorem exists_step_memoryBounds {s : State} (h : s.pc.toNat > 0xFFE) :
    ∃ u, step s = .next u ∧ u.result = .err .memoryBounds :=
  ⟨_, step_fetchError (by omega), rfl⟩

/-! ### Jumps -/

theorem zextAddr_eq_ofNat (a : Addr) : zextAddr a = BitVec.ofNat 16 a.toNat := (BitVec.ofNat_toNat 16 a).symm

/-- The sum of BNNN never wraps and is not reduced to 12 bits (R148). -/
theorem toNat_indexedTarget (a : Addr) (b : Byte) : (zextAddr a + zextByte b).toNat = a.toNat + b.toNat := by
  have ha := a.isLt
  have hb := b.isLt
  have hbz : (zextByte b).toNat = b.toNat := by simp only [zextByte, BitVec.toNat_setWidth]; omega
  rw [BitVec.toNat_add, toNat_zextAddr, hbz]
  omega

/-- Settles O32: the target is written as it is. The step after a jump to 0xFFF fails to fetch, and a jump to the
address it was fetched from writes the PC it was fetched with. -/
theorem jumpLoadsPc : Obligations.JumpLoadsPc := by
  refine ⟨encodes_jp, fun addr s => ⟨⟨_, rfl, ?_, fun h => ?_⟩, fun hi hpc => ⟨_, step_of_exec hi rfl, ?_, rfl⟩⟩⟩
  · rw [← zextAddr_eq_ofNat]
    rfl
  · subst h
    exact exists_step_memoryBounds (by decide : (zextAddr 0xFFF).toNat > 0xFFE)
  · exact BitVec.eq_of_toNat_eq ((toNat_zextAddr addr).trans hpc.symm)

/-- Settles O36: the sum is exact, and above 0xFFE the step after the jump fails to fetch. -/
theorem indexedJumpAddsV0 : Obligations.IndexedJumpAddsV0 := by
  refine ⟨encodes_jpV0, fun addr s => ⟨_, rfl, rfl, toNat_indexedTarget addr _, fun h => ?_⟩⟩
  rw [← toNat_indexedTarget] at h
  exact exists_step_memoryBounds h

/-! ### Call and return -/

/-- Settles O31: the two ends of a return; the entry popped lies on the stack. -/
theorem returnPopsPc : Obligations.ReturnPopsPc := by
  refine ⟨encodes_ret, fun x y s => ⟨execRet_empty x y, fun k hk hsp => ?_⟩⟩
  have hlive : s.sp ≠ 0 := by omega
  have htop : s.stack.getD (s.sp - 1) 0x0000 = s.stack[k] := by
    rw [hsp, Nat.add_sub_cancel, List.getD_eq_getElem?_getD, List.getElem?_eq_getElem hk, Option.getD_some]
  refine (execRet_live x y hlive).trans ?_
  rw [htop, hsp, Nat.add_sub_cancel]

/-- Settles O33: the two ends of a call. -/
theorem callPushesPc : Obligations.CallPushesPc := by
  refine ⟨encodes_call, fun addr s => ⟨execCall_full addr, fun hsp => ?_⟩⟩
  rw [← zextAddr_eq_ofNat]
  exact execCall_free addr hsp

/-- A step of 2NNN on a stack that is not full (R143). -/
theorem step_call {s : State} {a : Addr} (hi : NextIs s (.call a)) (hsp : s.sp ≠ s.params.stackCapacity) :
    step s = .next (endStep { timerTick s with
      stack := s.stack.set s.sp (s.pc + 2), sp := s.sp + 1, pc := zextAddr a, result := .ok }) :=
  step_of_exec hi (execCall_free a hsp)

/-- A step of 00EE on a stack that is not empty (R141). -/
theorem step_ret {s : State} {x y : Nibble} (hi : NextIs s (.ret x y)) (hsp : s.sp ≠ 0) :
    step s = .next (endStep { timerTick s with
      sp := s.sp - 1, pc := s.stack.getD (s.sp - 1) 0x0000, result := .ok }) :=
  step_of_exec hi (execRet_live x y hsp)

/-- Settles O29: the call pushes the advanced PC at entry SP, which lies in the stack, and the return, one SP higher,
pops that entry. -/
theorem callThenReturnComesBack : Obligations.CallThenReturnComesBack := by
  intro s t u addr x y hlen hsp hcall ht hret hu
  cases (step_call hcall (Nat.ne_of_lt hsp)).symm.trans ht
  cases (step_ret hret (Nat.succ_ne_zero s.sp)).symm.trans hu
  have hpop : (s.stack.set s.sp (s.pc + 2)).getD s.sp 0x0000 = s.pc + 2 := by
    rw [List.getD_eq_getElem?_getD, List.getElem?_set_self (hlen ▸ hsp), Option.getD_some]
  exact ⟨toNat_zextAddr addr, rfl, hpop, rfl, rfl⟩

/-! ### Skips -/

theorem add_two_eq_ofNat (a : Word) : a + 2 = BitVec.ofNat 16 (a.toNat + 2) := by
  rw [BitVec.ofNat_add, BitVec.ofNat_toNat, BitVec.setWidth_eq]
  rfl

/-- A skip whose test decides `p` (R140). -/
theorem retOk_skipIf {c : Bool} {p : Prop} [Decidable p] (hc : c = true ↔ p) (s : State) :
    retOk (skipIf c s) =
      .next { s with pc := if p then BitVec.ofNat 16 (s.pc.toNat + 2) else s.pc, result := .ok } := by
  simp only [retOk_next, skipIf_eq, hc, add_two_eq_ofNat]

/-- Settles O34: the tests of 3XNN and 4XNN decide the equality and its negation. -/
theorem skipOnImmediate : Obligations.SkipOnImmediate := by
  refine ⟨encodes_seImm, encodes_sneImm, fun x imm s => ⟨retOk_skipIf beq_iff_eq s, ?_⟩⟩
  rw [← ite_not]
  exact retOk_skipIf bne_iff_ne s

/-- Settles O35: the tests of 5XY0 and 9XY0 decide the equality and its negation, and N is in neither. -/
theorem skipOnRegisters : Obligations.SkipOnRegisters := by
  refine ⟨encodes_seReg, encodes_sneReg, fun x y _ s => ⟨retOk_skipIf beq_iff_eq s, ?_⟩⟩
  rw [← ite_not]
  exact retOk_skipIf bne_iff_ne s

end Sys2Proof.Machine
end

section
/-!
PROOFS about the register and ALU instructions (42_alu.md): the row of the opcode map each lies in, how an instruction
that writes one register ends, with a flag and without, and from these what each instruction computes.
-/

namespace Sys2Proof.Machine

/-! ### Rows of the opcode map (R92) -/

/-- A row of the two-register instructions: N selects within group 0x8 (R87). -/
theorem encodes_group8 {v : Word} (f : Nibble → Nibble → Instr) (hg : fieldGroup v = 0x8#4)
    (hf : ∀ x y, encode (f x y) = wordOfNibbles 0x8 x y (fieldN v)) :
    Encodes 0xF00F v (fun w => f (w.extractLsb' 8 4) (w.extractLsb' 4 4)) := fun _ h =>
  decodeWord_of_encode_eq
    ((hf _ _).trans (wordOfNibbles_of_fields ((fieldGroup_of_mask h rfl).trans hg) (fieldN_of_mask h rfl)))

/-- A row of the instructions with an immediate: the group alone selects (R84). -/
theorem encodes_immediate {v : Word} (f : Nibble → Byte → Instr)
    (hf : ∀ x k, encode (f x k) = wordOfImm (fieldGroup v) x k) :
    Encodes 0xF000 v (fun w => f (w.extractLsb' 8 4) (w.extractLsb' 0 8)) := fun _ h =>
  decodeWord_of_encode_eq ((hf _ _).trans (wordOfImm_of_fields (fieldGroup_of_mask h rfl) rfl))

/-! ### How an instruction that writes a register ends -/

/-- An instruction that writes V[x] and no flag. -/
theorem exists_retOk_setV (s : State) (x : Nibble) (b : Byte) :
    ∃ t, retOk (setV s x b) = .next t ∧ OnlyRegs [x] s t ∧ getV t x = b := by
  refine ⟨_, retOk_next _, ⟨rfl, fun r hr => ?_⟩, getV_setV_self s x b⟩
  rw [List.mem_singleton] at hr
  exact getV_setV_ne s b (Ne.symm hr)

/-- An instruction that writes to V[x] a byte known bit by bit, and no flag. -/
theorem exists_retOk_setV_bits (s : State) (x : Nibble) {b : Byte} {p : Nat → Bool} (hb : ∀ k, b.getLsbD k = p k) :
    ∃ t, retOk (setV s x b) = .next t ∧ OnlyRegs [x] s t ∧ ∀ k, (getV t x).getLsbD k = p k := by
  obtain ⟨t, ht, hregs, hres⟩ := exists_retOk_setV s x b
  exact ⟨t, ht, hregs, fun k => hres ▸ hb k⟩

/-- An instruction that writes the flag `f` and then V[x]: with X = F the result overwrites the flag (R160). -/
theorem exists_retOk_setV_flag (s : State) (f : Byte) (x : Nibble) (b : Byte) :
    ∃ t, retOk (setV (setV s vF f) x b) = .next t ∧ OnlyRegs [x, 0xF] s t ∧ getV t x = b ∧
      (x ≠ 0xF → getV t 0xF = f) := by
  refine ⟨_, retOk_next _, ⟨rfl, fun r hr => ?_⟩, getV_setV_self _ x b, fun hx => ?_⟩
  · obtain ⟨hrx, hrF⟩ : r ≠ x ∧ r ≠ 0xF := by simpa using hr
    exact (getV_setV_ne _ b hrx.symm).trans (getV_setV_ne s f hrF.symm)
  · exact (getV_setV_ne _ b hx).trans (getV_setV_self s vF f)

/-! ### The instructions that write no flag -/

/-- Settles O37: the immediate is what is written. -/
theorem loadImmediate : Obligations.LoadImmediate :=
  ⟨encodes_immediate .ldImm fun _ _ => rfl, fun x imm s => exists_retOk_setV s x imm⟩

/-- Settles O38: the sum of two bytes is modulo 256. -/
theorem addImmediateWithoutFlag : Obligations.AddImmediateWithoutFlag := by
  refine ⟨encodes_immediate .addImm fun _ _ => rfl, fun x imm s => ?_⟩
  obtain ⟨t, ht, hregs, hres⟩ := exists_retOk_setV s x (getV s x + imm)
  exact ⟨t, ht, hregs, by rw [hres, BitVec.toNat_add]⟩

/-- Settles O39: V[Y] is what is written. -/
theorem copyRegister : Obligations.CopyRegister :=
  ⟨encodes_group8 .ldReg rfl fun _ _ => rfl, fun x y s => exists_retOk_setV s x (getV s y)⟩

/-- Settles O40: the three operations act on each bit alone. -/
theorem logicOfRegisters : Obligations.LogicOfRegisters :=
  ⟨encodes_group8 .or rfl fun _ _ => rfl, encodes_group8 .and rfl fun _ _ => rfl,
    encodes_group8 .xor rfl fun _ _ => rfl, fun x _ s =>
      ⟨exists_retOk_setV_bits s x fun _ => BitVec.getLsbD_or, exists_retOk_setV_bits s x fun _ => BitVec.getLsbD_and,
        exists_retOk_setV_bits s x fun _ => BitVec.getLsbD_xor⟩⟩

/-- Settles O46: the random byte, whatever it is, masked bit by bit. -/
theorem randomByteIsMasked : Obligations.RandomByteIsMasked :=
  ⟨encodes_immediate .rnd fun _ _ => rfl, fun x _ s => exists_retOk_setV_bits s x fun _ => BitVec.getLsbD_and⟩

/-! ### The flags -/

/-- The byte of a flag that decides `p`. -/
theorem flagByte_decide (p : Prop) [Decidable p] : flagByte (decide p) = if p then 1 else 0 := by
  by_cases hp : p <;> simp [flagByte, hp]

/-- The value of a flag that decides `p`. -/
theorem toNat_flagByte_decide (p : Prop) [Decidable p] : (flagByte (decide p)).toNat = if p then 1 else 0 := by
  rw [flagByte_decide]
  split <;> rfl

/-- The flag of 8XY6 is the remainder of the division by 2 (R169). -/
theorem toNat_lowBitFlag (b : Byte) : (lowBitFlag b).toNat = b.toNat % 2 := by
  rw [lowBitFlag, BitVec.getLsbD, Nat.testBit_zero, toNat_flagByte_decide]
  split <;> omega

/-- The flag of 8XYE decides whether doubling leaves the byte (R171). -/
theorem highBitFlag_eq (b : Byte) : highBitFlag b = if b.toNat < 0x80 then 0 else 1 := by
  have hmsb : b.getLsbD 7 = decide (2 ^ 7 ≤ b.toNat) := BitVec.msb_eq_decide b
  rw [highBitFlag, hmsb, flagByte_decide, ← ite_not]
  simp only [Nat.not_le, Nat.reducePow]

/-- The flag of 8XYE is the quotient of the division by 128 (R171). -/
theorem toNat_highBitFlag (b : Byte) : (highBitFlag b).toNat = b.toNat / 128 := by
  have hb := b.isLt
  rw [highBitFlag_eq]
  split
  · change 0 = b.toNat / 128; omega
  · change 1 = b.toNat / 128; omega

/-! ### Addition and subtraction -/

/-- Settles O41: the sum is latched before VF is written, so the carry is seen unless the sum overwrites it. -/
theorem addRegistersWithCarry : Obligations.AddRegistersWithCarry := by
  refine ⟨encodes_group8 .addReg rfl fun _ _ => rfl, fun x y s => ?_⟩
  obtain ⟨t, ht, hregs, hres, hflag⟩ :=
    exists_retOk_setV_flag s (carryFlag ((getV s x).toNat + (getV s y).toNat)) x
      (BitVec.ofNat 8 ((getV s x).toNat + (getV s y).toNat))
  refine ⟨t, ht, hregs, ?_, fun hx => ?_⟩
  · rw [hres, BitVec.toNat_ofNat]
  · rw [hflag hx, carryFlag, toNat_flagByte_decide]

/-- The flag of 8XY5 and 8XY7 (R168, R170). -/
theorem notBorrowFlag_eq (m n : Byte) : notBorrowFlag m n = if m.toNat > n.toNat then 1 else 0 := flagByte_decide _

/-- A subtraction `op` of V[x] and V[y], whose `flag` is computed before VF is written and whose result after, so that
an operand that is VF is the flag (R160); with X = Y = F the flag is taken from itself. -/
theorem exists_retOk_subtraction {flag value op : Byte → Byte → Byte} (hflag : ∀ a b, flag a b = value a b)
    (hop : ∀ b, op b b = 0) {x y : Nibble} {s : State} {v u f : Byte}
    (hv : v = getV s x) (hu : u = getV s y) (hf : f = getV s 0xF) :
    ∃ t, (let r := setV s vF (flag (getV s x) (getV s y)); retOk (setV r x (op (getV r x) (getV r y)))) = .next t ∧
      OnlyRegs [x, 0xF] s t ∧
      (x ≠ 0xF → y ≠ 0xF → getV t x = op v u ∧ getV t 0xF = value v u) ∧
      (x = 0xF → y ≠ 0xF → getV t 0xF = op (value f u) u) ∧
      (x ≠ 0xF → y = 0xF → ∀ b, b = value v f → getV t 0xF = b ∧ getV t x = op v b) ∧
      (x = 0xF → y = 0xF → getV t 0xF = 0) := by
  rw [← hv, ← hu, hflag]
  obtain ⟨t, ht, hregs, hres, hvF⟩ := exists_retOk_setV_flag s (value v u) x
    (op (getV (setV s vF (value v u)) x) (getV (setV s vF (value v u)) y))
  have other {z : Nibble} (hz : z ≠ 0xF) : getV (setV s vF (value v u)) z = getV s z := getV_setV_ne s _ hz.symm
  have self : getV (setV s vF (value v u)) 0xF = value v u := getV_setV_self s vF _
  refine ⟨t, ht, hregs, fun hx hy => ⟨?_, hvF hx⟩, fun hx hy => ?_, fun hx hy b hb => ?_, fun hx hy => ?_⟩
  · rw [hres, other hx, other hy, hv, hu]
  · subst hx
    rw [hres, self, other hy, ← hu, hv, hf]
  · subst hy
    obtain rfl : f = u := hf.trans hu.symm
    rw [hb, hres, self, other hx, ← hv]
    exact ⟨hvF hx, rfl⟩
  · subst hx hy
    rw [hres, self, hop]

/-- Settles O42: V[Y] from V[X]. -/
theorem subtractWithNotBorrow : Obligations.SubtractWithNotBorrow :=
  ⟨encodes_group8 .sub rfl fun _ _ => rfl, fun _ _ _ _ _ _ hv hu hf =>
    exists_retOk_subtraction (op := fun a b => a - b) notBorrowFlag_eq (fun _ => BitVec.sub_self _) hv hu hf⟩

/-- Settles O44: V[X] from V[Y], in the comparison too. -/
theorem reverseSubtractWithNotBorrow : Obligations.ReverseSubtractWithNotBorrow :=
  ⟨encodes_group8 .subn rfl fun _ _ => rfl, fun _ _ _ _ _ _ hv hu hf =>
    exists_retOk_subtraction (op := fun a b => b - a) (fun a b => notBorrowFlag_eq b a) (fun _ => BitVec.sub_self _)
      hv hu hf⟩

/-! ### Shifts -/

/-- A shift reads the register that the parameter selects (R169, R171). -/
theorem shiftOperand_eq {x y z : Nibble} {s : State} (hz : z = if s.params.shiftUsesVY = true then y else x) :
    shiftOperand x y s = getV s z := by
  rw [hz, shiftOperand, apply_ite (getV s)]

/-- A shift writes the flag `f` and then the shifted register as the flag left it, which is the flag where that
register is VF (R160). -/
theorem exists_retOk_flag_then_shift (shift : Byte → Byte) (s : State) (f : Byte) {x y z : Nibble}
    (hz : z = if s.params.shiftUsesVY = true then y else x) :
    ∃ t, retOk (setV (setV s vF f) x (shift (shiftOperand x y (setV s vF f)))) = .next t ∧ OnlyRegs [x, 0xF] s t ∧
      (z ≠ 0xF → getV t x = shift (getV s z)) ∧ (z = 0xF → getV t x = shift f) ∧ (x ≠ 0xF → getV t 0xF = f) := by
  rw [shiftOperand_eq (s := setV s vF f) hz]
  obtain ⟨t, ht, hregs, hres, hflag⟩ := exists_retOk_setV_flag s f x (shift (getV (setV s vF f) z))
  refine ⟨t, ht, hregs, fun hzF => ?_, fun hzF => ?_, hflag⟩
  · rw [hres, getV_setV_ne s f hzF.symm]
  · rw [hres, hzF, getV_setV_self]

/-- Settles O43: the flag is the bit shifted out, and shifted in its turn it is 0. -/
theorem shiftRightByOne : Obligations.ShiftRightByOne := by
  refine ⟨encodes_group8 .shr rfl fun _ _ => rfl, fun x y z s hz => ?_⟩
  obtain ⟨t, ht, hregs, hother, hself, hflag⟩ :=
    exists_retOk_flag_then_shift (· >>> 1) s (lowBitFlag (getV s z)) hz
  rw [← shiftOperand_eq hz] at ht
  refine ⟨t, ht, hregs, fun hzF => ?_, fun hzF => ?_, fun hx => ?_⟩
  · rw [hother hzF, BitVec.toNat_ushiftRight, Nat.shiftRight_eq_div_pow, Nat.pow_one]
  · rw [hself hzF, ← BitVec.toNat_inj, BitVec.toNat_ushiftRight, Nat.shiftRight_eq_div_pow, Nat.pow_one,
      toNat_lowBitFlag]
    exact Nat.div_eq_of_lt (Nat.mod_lt _ (by decide))
  · rw [hflag hx, toNat_lowBitFlag]

/-- Settles O45: the flag is the bit shifted out, and shifted in its turn it is 0 or 2. -/
theorem shiftLeftByOne : Obligations.ShiftLeftByOne := by
  refine ⟨encodes_group8 .shl rfl fun _ _ => rfl, fun x y z s hz => ?_⟩
  obtain ⟨t, ht, hregs, hother, hself, hflag⟩ :=
    exists_retOk_flag_then_shift (· <<< 1) s (highBitFlag (getV s z)) hz
  rw [← shiftOperand_eq hz] at ht
  refine ⟨t, ht, hregs, fun hzF => ?_, fun hzF => ?_, fun hx => ?_⟩
  · rw [hother hzF, BitVec.toNat_shiftLeft, Nat.shiftLeft_eq]
  · rw [hself hzF, hzF, highBitFlag_eq]
    split <;> rfl
  · rw [hflag hx, toNat_highBitFlag]

end Sys2Proof.Machine
end

section
/-!
PROOFS about the index register and memory (43_index_memory.md): the row of the opcode map each instruction lies in, how
an instruction that checks its range first ends, and from these what each instruction computes.
-/

namespace Sys2Proof.Machine

/-! ### Rows of the opcode map (R92) -/

theorem encodes_ldI : Encodes 0xF000 0xA000 (fun w => .ldI (w.extractLsb' 0 12)) := fun _ h =>
  decodeWord_of_encode_eq (wordOfAddr_of_group (fieldGroup_of_mask h rfl))

/-- A row of the one-register instructions: the group and the low byte select (R88, R89). -/
theorem encodes_lowByte {v : Word} (f : Nibble → Instr)
    (hf : ∀ x, encode (f x) = wordOfImm (fieldGroup v) x (fieldImm v)) :
    Encodes 0xF0FF v (fun w => f (w.extractLsb' 8 4)) := fun _ h =>
  decodeWord_of_encode_eq ((hf _).trans (wordOfImm_of_fields (fieldGroup_of_mask h rfl) (fieldImm_of_mask h rfl)))

/-! ### The index register -/

/-- A byte fits in a word (R8). -/
theorem toNat_zextByte (b : Byte) : (zextByte b).toNat = b.toNat :=
  BitVec.toNat_setWidth_of_le (by decide)

/-- The glyph formula never wraps: its largest value is 0x50 + 5 * 255 (R193). -/
theorem toNat_glyphAddr (b : Byte) : (glyphAddr b).toNat = 0x50 + 5 * b.toNat := by
  have hb := b.isLt
  rw [glyphAddr, BitVec.toNat_ofNat]
  exact Nat.mod_eq_of_lt (by simp only [Config.fontBase]; omega)

/-- Settles O47: the address is zero-extended and nothing else is written. -/
theorem loadIndex : Obligations.LoadIndex := by
  refine ⟨encodes_ldI, fun addr s => ?_⟩
  rw [← zextAddr_eq_ofNat]
  rfl

/-- Settles O48: the sum of two words is modulo 65536, and I alone is written. -/
theorem addRegisterToIndex : Obligations.AddRegisterToIndex := by
  refine ⟨encodes_lowByte .addI fun _ => rfl, fun x s => ⟨_, rfl, rfl, ?_⟩⟩
  change (s.i + zextByte (getV s x)).toNat = _
  rw [BitVec.toNat_add, toNat_zextByte]

/-- Settles O49: the glyph formula on the whole of V[X]. -/
theorem pointIndexAtGlyph : Obligations.PointIndexAtGlyph :=
  ⟨encodes_lowByte .ldFont fun _ => rfl, fun x s => ⟨_, rfl, rfl, toNat_glyphAddr (getV s x)⟩⟩

/-! ### How an instruction that checks its range ends -/

/-- An access whose last byte `a + n` lies above memory raises, whatever it would have done (R57, R258). -/
theorem whenInRange_raised {a n : Nat} (h : a + n > 4095) (s t : State) :
    whenInRange a (n + 1) s t = .next (Raised .memoryBounds s) :=
  whenInRange_err (by omega) s t

/-- A store of the `n + 1` bytes `xs` whose last address lies in memory writes them in order and no other byte; in
canonical memory they are read back. -/
theorem exists_whenInRange_storeBytes (s : State) {a n : Nat} {xs : List Byte} (hxs : xs.length = n + 1)
    (h : a + n ≤ 4095) :
    ∃ t, whenInRange a (n + 1) s (storeBytes s a xs) = .next t ∧ OnlyBytes a (n + 1) s t ∧
      (MemWf s.params.font s.mem → ∀ k, k ≤ n → memByte t (a + k) = xs.getD k 0x00) := by
  refine ⟨_, whenInRange_ok (by omega) _ _, ⟨rfl, fun c hc => ?_⟩, fun hm k hk => ?_⟩
  · rw [← hxs] at hc
    exact memByte_storeBytes_outside s hc
  · have hfits : a + xs.length ≤ Config.memSize := hxs ▸ Nat.succ_le_succ h
    refine (memByte_storeBytes hm hfits (a + k)).trans ?_
    rw [if_pos (by omega), Nat.add_sub_cancel_left]

/-! ### Stores and loads -/

/-- Settles O50: the three digits are a store of three bytes, and each digit fits in its byte. -/
theorem storeDecimalDigits : Obligations.StoreDecimalDigits := by
  refine ⟨encodes_lowByte .ldBcd fun _ => rfl, fun x s => ⟨fun h => ?_, fun h => whenInRange_raised h _ _⟩⟩
  obtain ⟨t, ht, hbytes, hread⟩ := exists_whenInRange_storeBytes s (n := 2) (xs := bcdDigits (getV s x)) rfl h
  refine ⟨t, ht, hbytes, fun hm => ?_⟩
  have hv := (getV s x).isLt
  have h0 : memByte t s.i.toNat = BitVec.ofNat 8 ((getV s x).toNat / 100) := hread hm 0 (by decide)
  have h1 : memByte t (s.i.toNat + 1) = BitVec.ofNat 8 ((getV s x).toNat / 10 % 10) := hread hm 1 (by decide)
  have h2 : memByte t (s.i.toNat + 2) = BitVec.ofNat 8 ((getV s x).toNat % 10) := hread hm 2 (by decide)
  rw [h0, h1, h2]
  simp only [BitVec.toNat_ofNat]
  omega

/-- Settles O51: the block is a store of the first X + 1 registers. -/
theorem storeRegisterBlock : Obligations.StoreRegisterBlock := by
  refine ⟨encodes_lowByte .store fun _ => rfl, fun x s => ⟨fun h => ?_, fun h => whenInRange_raised h _ _⟩⟩
  obtain ⟨t, ht, hbytes, hread⟩ := exists_whenInRange_storeBytes s (firstRegs_length s (x.toNat + 1)) h
  refine ⟨t, ht, hbytes, fun hm k hk => ?_⟩
  rw [hread hm k.toNat hk, firstRegs_getD s (Nat.lt_succ_of_le hk), BitVec.ofNat_toNat, BitVec.setWidth_eq]

/-- Settles O52: the block load reads the first X + 1 registers from memory and writes nothing but registers. -/
theorem loadRegisterBlock : Obligations.LoadRegisterBlock := by
  refine ⟨encodes_lowByte .load fun _ => rfl, fun x s => ⟨fun h => ?_, fun h => whenInRange_raised h _ _⟩⟩
  refine ⟨_, whenInRange_ok (by simp only [baseAddr]; omega) _ _, by rw [loadRegs_eq], fun r => ?_⟩
  have hload := getV_loadRegs s s.i.toNat (x.toNat + 1) x.isLt r
  simp only [Nat.lt_succ_iff] at hload
  exact hload

end Sys2Proof.Machine
end

section
/-!
PROOFS about the display instructions (44_display.md): the row of the opcode map each lies in, a framebuffer is its
cells, what a completed DXYN does to the cells and to VF, and from these that the same draw twice restores the framebuffer.
-/

namespace Sys2Proof.Machine

/-! ### Rows of the opcode map (R92) -/

theorem encodes_cls : Encodes 0xF00F 0x0000 (fun w => .cls (w.extractLsb' 8 4) (w.extractLsb' 4 4)) := fun _ h =>
  decodeWord_of_encode_eq (wordOfNibbles_of_fields (fieldGroup_of_mask h rfl) (fieldN_of_mask h rfl))

theorem encodes_drw : Encodes 0xF000 0xD000
    (fun w => .drw (w.extractLsb' 8 4) (w.extractLsb' 4 4) (w.extractLsb' 0 4)) := fun _ h =>
  decodeWord_of_encode_eq (wordOfNibbles_of_fields (fieldGroup_of_mask h rfl) rfl)

/-! ### Cells -/

/-- 00E0 leaves every cell dark (R211). -/
theorem cell_clearDisplay (s : State) (k : Nat) : cell (clearDisplay s) k = false := by
  simp [cell]

/-- Two framebuffers with the same cells are the same (R32). -/
theorem fb_eq_of_cells {s t : State} (h : ∀ k, cell t k = cell s k) : t.fb = s.fb := by
  refine Vector.ext fun row hrow => BitVec.eq_of_getLsbD_eq fun col hcol => ?_
  rw [← cell_at t hcol hrow, ← cell_at s hcol hrow, h]

/-- Settles O53: no row of the cleared framebuffer has a bit. -/
theorem clearScreen : Obligations.ClearScreen :=
  ⟨encodes_cls, fun _ _ s => ⟨_, retOk_next _, rfl, cell_clearDisplay s⟩⟩

/-! ### One draw -/

/-- The cells that DXYN toggles from `s`: those of its visible set bits (R213 (a)). -/
def spriteMask (x y n : Nibble) (s : State) : Nat → Bool :=
  spriteBit s ((getV s x).toNat % 64) ((getV s y).toNat % 32) n.toNat

/-- The state from which a DXYN that completes toggles its cells: VF is reset (R212 step 3). -/
def drawStart (s : State) : State := { setV s vF 0x00 with result := .ok }

theorem getV_drawStart_vF (s : State) : getV (drawStart s) vF = 0x00 := getV_setV_self s vF _

theorem getV_drawStart_ne (s : State) {r : Nibble} (hr : r ≠ 0xF) : getV (drawStart s) r = getV s r :=
  getV_setV_ne s _ hr.symm

/-- DXYN whose bytes lie in memory, or whose N is 0, toggles its cells (R212). -/
theorem exists_exec_drw {n : Nibble} {s : State} (h : n.toNat = 0 ∨ s.i.toNat + n.toNat ≤ 4096) (x y : Nibble) :
    ∃ t, exec (.drw x y n) s = .next t ∧ Drawn (spriteMask x y n s) (drawStart s) t := by
  refine ⟨drawRows (originX s x) (originY s y) n.toNat (drawStart s), ?_, ?_⟩
  · rw [drawStart, drawRows_result]
    exact whenInRange_ok h s _
  · exact drawn_drawRows (originX s x) (originY s y) n.toNat (drawStart s)

/-- VF is 1 after a draw exactly when the draw turned a lit cell off (R213 (b)). -/
theorem Drawn.flag_eq_one_iff {m : Nat → Bool} {s t : State} (h : Drawn m (drawStart s) t) :
    getV t vF = 1 ↔ ∃ k, m k = true ∧ cell s k = true := by
  refine ⟨fun hone => Classical.byContradiction fun hnone => ?_, h.hit⟩
  have hzero : getV t vF = 0 :=
    (h.miss fun k hk => Bool.eq_false_iff.2 fun hlit => hnone ⟨k, hk, hlit⟩).trans (getV_drawStart_vF s)
  exact absurd (hone.symm.trans hzero) (by decide)

/-- Settles O54 (`drawSprite` names the draw itself): the law of a draw, from the state whose VF is reset; a range that
ends above memory raises first. -/
theorem drawSpriteTogglesMask : Obligations.DrawSprite := by
  refine ⟨encodes_drw, fun x y n s m hm => ⟨fun hr => ?_, fun hn hi => whenInRange_err (fun hr => ?_) _ _⟩⟩
  · obtain rfl : m = spriteMask x y n s := hm
    obtain ⟨t, ht, hdraw⟩ := exists_exec_drw hr x y
    exact ⟨t, ht, hdraw.same, fun r hne => (hdraw.regs r hne).trans (getV_drawStart_ne s hne), hdraw.cells, hdraw.hit,
      fun hdark => (hdraw.miss hdark).trans (getV_drawStart_vF s), hdraw.changed⟩
  · exact hr.elim (Nat.ne_of_gt hn) (Nat.not_le_of_gt hi)

/-! ### The same draw twice -/

/-- A draw writes neither the sprite nor, but for VF, a register, so the same draw after it toggles the same cells. -/
theorem Drawn.spriteMask_eq {m : Nat → Bool} {s t : State} (h : Drawn m (drawStart s) t) {x y : Nibble}
    (hx : x ≠ 0xF) (hy : y ≠ 0xF) (n : Nibble) : spriteMask x y n t = spriteMask x y n s := by
  have origin {z : Nibble} (hz : z ≠ 0xF) : getV t z = getV s z := (h.regs z hz).trans (getV_drawStart_ne s hz)
  have sprite : spriteBit t = spriteBit s := by rw [h.same]; rfl
  rw [spriteMask, origin hx, origin hy, sprite, spriteMask]

/-- Settles O28: the second draw toggles the cells of the first back, and turns off exactly those the first lit. -/
theorem doubleDrawRestoresFramebuffer : Obligations.DoubleDrawRestoresFramebuffer := by
  intro x y n s hx hy hr
  have hr : n.toNat = 0 ∨ s.i.toNat + n.toNat ≤ 4096 := hr.imp_left (congrArg BitVec.toNat)
  obtain ⟨t, ht, hfirst⟩ := exists_exec_drw hr x y
  have hi : t.i = s.i := by rw [hfirst.same]; rfl
  obtain ⟨u, hu, hsecond⟩ := exists_exec_drw (hi ▸ hr) x y
  rw [hfirst.spriteMask_eq hx hy] at hsecond
  have hcell (k : Nat) : cell t k = (cell s k ^^ spriteMask x y n s k) := hfirst.cells k
  refine ⟨t, u, ht, hu, fb_eq_of_cells fun k => ?_, hsecond.flag_eq_one_iff.trans (exists_congr fun k => ?_)⟩
  · calc cell u k
        = (cell t k ^^ spriteMask x y n s k) := hsecond.cells k
      _ = cell s k := by rw [hcell, Bool.xor_assoc, Bool.xor_self, Bool.xor_false]
  · rw [hcell, ← spriteMask]
    cases spriteMask x y n s k <;> simp

end Sys2Proof.Machine
end

section
/-!
PROOFS about the key and timer instructions (45_keys_timers.md): which key a register selects and which one FX0A finds,
how FX0A ends, and from these what each instruction does and that a step of FX0A waits for a key.
-/

namespace Sys2Proof.Machine

/-! ### Keys -/

/-- The key a register selects is its value modulo 16 (R230). -/
theorem keyDown_eq {s : State} {x : Nibble} {k : Fin 16} (hk : (getV s x).toNat % 16 = k.val) :
    keyDown s x = s.key[k] := by
  simp only [keyDown, hk]
  rfl

/-- Settles O55: the tests of EX9E and EXA1 are the selected latch and its negation. -/
theorem skipOnKey : Obligations.SkipOnKey := by
  refine ⟨encodes_lowByte .skp fun _ => rfl, encodes_lowByte .sknp fun _ => rfl, fun x s k hk => ?_⟩
  have hdown : keyDown s x = true ↔ s.key[k] = true := by rw [keyDown_eq hk]
  have hup : (!keyDown s x) = true ↔ ¬s.key[k] = true := by rw [Bool.not_eq_true', ← Bool.not_eq_true, hdown]
  refine ⟨retOk_skipIf hdown s, ?_⟩
  rw [← ite_not]
  exact retOk_skipIf hup s

/-- The scan finds the pressed key below which none is pressed (R234). -/
theorem leastKey_eq_some {s : State} {k : Fin 16} (hk : s.key[k] = true)
    (hlow : ∀ j : Fin 16, j < k → s.key[j] = false) : leastKey s = some k.val := by
  cases hleast : leastKey s with
  | none => exact absurd hk (Bool.eq_false_iff.1 (leastKey_none.1 hleast k k.isLt))
  | some m =>
    obtain ⟨hm, hdown, hfirst⟩ := leastKey_some hleast
    have hkm : ¬k.val < m := fun h => absurd hk (Bool.eq_false_iff.1 (hfirst k h))
    have hmk : ¬m < k.val := fun h => absurd hdown (Bool.eq_false_iff.1 (hlow ⟨m, hm⟩ h))
    rw [Nat.le_antisymm (Nat.le_of_not_lt hkm) (Nat.le_of_not_lt hmk)]

/-- FX0A with a key down stores the number of the least one, which fits in a byte, and writes nothing else (R234). -/
theorem exists_exec_ldKey_of_least {s : State} {k : Fin 16} (hk : s.key[k] = true)
    (hlow : ∀ j : Fin 16, j < k → s.key[j] = false) (x : Nibble) :
    ∃ t, exec (.ldKey x) s = .next t ∧ OnlyRegs [x] s t ∧ (getV t x).toNat = k.val := by
  obtain ⟨t, ht, hregs, hres⟩ := exists_retOk_setV s x (BitVec.ofNat 8 k.val)
  refine ⟨t, (execLdKey_some x s (leastKey_eq_some hk hlow)).trans ht, hregs, ?_⟩
  rw [hres, BitVec.toNat_ofNat]
  exact Nat.mod_eq_of_lt (Nat.lt_trans k.isLt (by decide))

/-- FX0A with no key down takes PC back by 2 and writes nothing else (R234). -/
theorem exec_ldKey_of_no_key {s : State} (hnone : ∀ j : Fin 16, s.key[j] = false) (x : Nibble) :
    exec (.ldKey x) s = .next { s with pc := s.pc - 2, result := .ok } :=
  execLdKey_none x s (leastKey_none.2 fun k hk => hnone ⟨k, hk⟩)

/-- Settles O57: the two ends of FX0A. -/
theorem waitForKey : Obligations.WaitForKey :=
  ⟨encodes_lowByte .ldKey fun _ => rfl, fun x _ =>
    ⟨fun _ hk hlow => exists_exec_ldKey_of_least hk hlow x, fun hnone => exec_ldKey_of_no_key hnone x⟩⟩

/-- Settles O30: the tick and the fetch leave the keys alone, so the step ends as FX0A does from them. What FX0A takes
back from PC is what the fetch added; with a key down it leaves PC advanced. -/
theorem keyWaitHoldsThenAdvances : Obligations.KeyWaitHoldsThenAdvances := by
  intro s t x hi ht
  refine ⟨fun hnone => ?_, fun k hk hlow => ?_⟩
  · have hexec := exec_ldKey_of_no_key (s := advancePc (timerTick s)) hnone x
    cases (step_of_exec hi hexec).symm.trans ht
    exact ⟨BitVec.add_sub_cancel s.pc 2, rfl, rfl⟩
  · obtain ⟨u, hu, ⟨hframe, hregs⟩, hres⟩ := exists_exec_ldKey_of_least (s := advancePc (timerTick s)) hk hlow x
    cases (step_of_exec hi hu).symm.trans ht
    exact ⟨congrArg State.pc hframe, hres, fun r hr => hregs r fun hmem => hr (List.mem_singleton.1 hmem)⟩

/-! ### Timers -/

/-- Settles O56: DT is what is written. -/
theorem readDelayTimer : Obligations.ReadDelayTimer :=
  ⟨encodes_lowByte .ldFromDT fun _ => rfl, fun x s => exists_retOk_setV s x s.dt⟩

/-- Settles O58: DT alone is written. -/
theorem setDelayTimer : Obligations.SetDelayTimer :=
  ⟨encodes_lowByte .ldToDT fun _ => rfl, fun x s => retOk_next { s with dt := getV s x }⟩

/-- Settles O59: ST alone is written, and the tone is on while ST is not 0 (R29). -/
theorem setSoundTimer : Obligations.SetSoundTimer :=
  ⟨encodes_lowByte .ldToST fun _ => rfl, fun x s => ⟨_, retOk_next { s with st := getV s x }, rfl, bne_iff_ne⟩⟩

end Sys2Proof.Machine
end

section
/-!
PROOFS about errors and the timer tick (60_exceptions.md): when each error is raised, in an instruction and in a step,
and what a tick does.
-/

namespace Sys2Proof.Machine

/-! ### Errors of the execute phase -/

/-- In its situation each instruction raises its error and writes nothing else (R252 to R254, R258). -/
theorem ExecRaises.exec_eq {s : State} {i : Instr} {e : Err} (h : ExecRaises s i e) :
    exec i s = .next (Raised e s) := by
  cases h with
  | overflow a h => exact execCall_full a h
  | underflow x y h => exact execRet_empty x y h
  | draw x y n h => exact whenInRange_err h ..
  | digits x h => exact whenInRange_err (by omega) ..
  | store x h => exact whenInRange_err (by omega) ..
  | load x h => exact whenInRange_err (by omega) ..

/-- The situations of `ExecRaises` are exactly those in which the execute phase ends with an error. -/
theorem exec_err_iff {i : Instr} {s t : State} {e : Err} (ht : exec i s = .next t) :
    t.result = .err e ↔ ExecRaises s i e := by
  refine ⟨exec_raises ht, fun h => ?_⟩
  cases h.exec_eq.symm.trans ht
  rfl

/-- An instruction that ends with an error leaves the state as it was but for the result (R258). -/
theorem eq_raised_of_exec {i : Instr} {s t : State} {e : Err} (ht : exec i s = .next t) (he : t.result = .err e) :
    t = Raised e s := by
  cases (exec_raises ht he).exec_eq.symm.trans ht
  rfl

/-! ### The stack -/

theorem execRaises_stackOverflow_iff {s : State} {i : Instr} :
    ExecRaises s i .stackOverflow ↔ (∃ a, i = .call a) ∧ s.sp = s.params.stackCapacity := by
  constructor
  · intro h
    cases h with
    | overflow a hsp => exact ⟨⟨a, rfl⟩, hsp⟩
  · rintro ⟨⟨a, rfl⟩, hsp⟩
    exact .overflow a hsp

theorem execRaises_stackUnderflow_iff {s : State} {i : Instr} :
    ExecRaises s i .stackUnderflow ↔ (∃ x y, i = .ret x y) ∧ s.sp = 0 := by
  constructor
  · intro h
    cases h with
    | underflow x y hsp => exact ⟨⟨x, y, rfl⟩, hsp⟩
  · rintro ⟨⟨x, y, rfl⟩, hsp⟩
    exact .underflow x y hsp

/-- Settles O14: the one situation of StackOverflow, in which the state stays but for the result. -/
theorem stackOverflowExactlyOnFullCall : Obligations.StackOverflowExactlyOnFullCall := by
  intro i s t ht
  refine ⟨(exec_err_iff ht).trans execRaises_stackOverflow_iff, fun he => ?_⟩
  rw [eq_raised_of_exec ht he]
  exact ⟨rfl, rfl, rfl⟩

/-- Settles O15: the one situation of StackUnderflow, in which the state stays but for the result. -/
theorem stackUnderflowExactlyOnEmptyReturn : Obligations.StackUnderflowExactlyOnEmptyReturn := by
  intro i s t ht
  refine ⟨(exec_err_iff ht).trans execRaises_stackUnderflow_iff, fun he => ?_⟩
  rw [eq_raised_of_exec ht he]
  exact ⟨rfl, rfl, rfl⟩

/-! ### Errors of a step -/

/-- WHEN A STEP ENDS WITH AN ERROR: its fetch fails, with MemoryBoundsError, or its instruction raises the error from
the state after the tick and the advance of PC (R114, R115). -/
theorem step_err_iff {s t : State} {e : Err} (ht : step s = .next t) :
    t.result = .err e ↔ (s.pc.toNat > 4094 ∧ e = .memoryBounds) ∨
      ∃ i, NextIs s i ∧ ExecRaises (advancePc (timerTick s)) i e := by
  constructor
  · intro he
    obtain ⟨hpc, h⟩ | ⟨_, _, -, -, h⟩ | ⟨i, u, hi, hu, h⟩ := step_cases s <;> cases h.symm.trans ht
    · cases he
      exact .inl ⟨by omega, rfl⟩
    · cases he
    · exact .inr ⟨i, hi, exec_raises hu he⟩
  · rintro (⟨hpc, rfl⟩ | ⟨i, hi, hraise⟩)
    · cases (step_fetchError (by omega)).symm.trans ht
      rfl
    · cases (step_of_exec hi hraise.exec_eq).symm.trans ht
      rfl

/-- Settles O16: the failed fetch is the first situation, and the four instructions that raise MemoryBoundsError the
others; neither the tick nor the advance of PC changes I. -/
theorem memoryBoundsErrorExactly : Obligations.MemoryBoundsErrorExactly := by
  intro s t ht
  have hindex : baseAddr (advancePc (timerTick s)) = s.i.toNat := rfl
  rw [step_err_iff ht]
  constructor
  · rintro (⟨hpc, -⟩ | ⟨i, hi, hraise⟩)
    · exact .inl hpc
    · cases hraise with
      | draw x y n h => exact .inr (.inl ⟨x, y, n, hi, by omega, by omega⟩)
      | digits x h => exact .inr (.inr (.inl ⟨x, hi, by omega⟩))
      | store x h => exact .inr (.inr (.inr (.inl ⟨x, hi, by omega⟩)))
      | load x h => exact .inr (.inr (.inr (.inr ⟨x, hi, by omega⟩)))
  · rintro (hpc | ⟨x, y, n, hi, hn, h⟩ | ⟨x, hi, h⟩ | ⟨x, hi, h⟩ | ⟨x, hi, h⟩)
    · exact .inl ⟨hpc, rfl⟩
    · exact .inr ⟨_, hi, .draw x y n (by omega)⟩
    · exact .inr ⟨_, hi, .digits x (by omega)⟩
    · exact .inr ⟨_, hi, .store x (by omega)⟩
    · exact .inr ⟨_, hi, .load x (by omega)⟩

/-! ### The timer tick -/

/-- A tick that is due counts both timers down and moves the reference to `now` (R265, R266). -/
theorem timerTick_of_due {s : State} (h : TickDue s) :
    timerTick s = { s with dt := countDown true s.dt, st := countDown true s.st, tickRef := s.now } := by
  rw [timerTick, (tickDue_iff s).2 h]
  rfl

/-- A tick that is not due does nothing (R265). -/
theorem timerTick_of_not_due {s : State} (h : ¬TickDue s) : timerTick s = s := by
  have hdue : tickDue s = false := Bool.eq_false_iff.2 fun hd => h ((tickDue_iff s).1 hd)
  rw [timerTick, hdue, countDown_false, countDown_false]
  rfl

/-- Settles O10: the two cases of a tick, and the counting down of one timer. -/
theorem timerTickFollowsTheClock : Obligations.TimerTickFollowsTheClock := fun s =>
  ⟨fun hdue => ⟨_, timerTick_of_due hdue, rfl, toNat_countDown s.dt, toNat_countDown s.st⟩, timerTick_of_not_due⟩

end Sys2Proof.Machine
end

section
/-!
PROOFS about reset and program load (70_reset_and_hazards.md): what memory reads as after a Reset, and the two ways a
legal Load ends.
-/

namespace Sys2Proof.Machine

/-! ### The reset contents of memory -/

/-- Inside the font table the reset contents are the font, byte by byte (R38). -/
theorem resetByte_font (font : Vector Byte Config.fontSize) (k : Fin Config.fontSize) :
    resetByte font (Config.fontBase + k.val) = font[k] := by
  have hk : Config.fontBase ≤ Config.fontBase + k.val ∧ Config.fontBase + k.val < Config.fontBase + Config.fontSize :=
    ⟨Nat.le_add_right .., Nat.add_lt_add_left k.isLt _⟩
  simp only [resetByte, dif_pos hk, Nat.add_sub_cancel_left, Fin.getElem_fin]

/-- Outside the font table the reset contents are zero (R38). -/
theorem resetByte_outside (font : Vector Byte Config.fontSize) {a : Nat}
    (ha : ¬(Config.fontBase ≤ a ∧ a < Config.fontBase + Config.fontSize)) : resetByte font a = 0 := dif_neg ha

/-! ### Reset -/

section
variable (p : Params) (now0 draws : Nat)

/-- After a Reset every byte of memory has its reset contents (R290). -/
@[simp] theorem memByte_resetAt (a : Nat) : memByte (State.resetAt p now0 draws) a = resetByte p.font a := rfl

/-- After a Reset every register is zero (R290). -/
@[simp] theorem getV_resetAt (x : Nibble) : getV (State.resetAt p now0 draws) x = 0 :=
  Vector.getElem_replicate _

/-- After a Reset every cell is dark (R290). -/
@[simp] theorem cell_resetAt (k : Nat) : cell (State.resetAt p now0 draws) k = false :=
  cell_clearDisplay (State.resetAt p now0 draws) k

/-- After a Reset no key is latched (R290). -/
theorem key_resetAt (k : Fin 16) : (State.resetAt p now0 draws).key[k] = false :=
  Vector.getElem_replicate _

end

/-- Settles O24: memory reads as its reset contents, and the other pieces of state are those of `State.resetAt`. -/
theorem resetGivesTheResetState : Obligations.ResetGivesTheResetState := by
  intro s now0
  refine ⟨State.resetAt s.params now0 s.draws, rfl, rfl, fun k => ?_, fun a _ hout => ?_, rfl, rfl,
    getV_resetAt _ _ _, rfl, rfl, rfl, rfl, rfl, cell_resetAt _ _ _, rfl, key_resetAt _ _ _, rfl⟩
  · exact (memByte_resetAt ..).trans (resetByte_font s.params.font k)
  · exact (memByte_resetAt ..).trans
      (resetByte_outside s.params.font fun hin => hout ⟨hin.1, Nat.le_of_lt_succ hin.2⟩)

/-! ### Load -/

section
variable {bytes : List Byte} {readable : Bool} {s : State}

/-- A legal Load that cannot be carried out raises LoadError and writes nothing (R293, R294). -/
theorem loadOp_raised (hopen : s.loadOpen = true)
    (h : readable = false ∨ Config.progBase + bytes.length > Config.memSize) :
    loadOp bytes readable s = .next (Raised .loadError s) := by
  cases readable with
  | false => simp [loadOp, hopen, raiseErr, Raised]
  | true =>
    have hlong := h.resolve_left (by decide)
    simp [loadOp, hopen, hlong, raiseErr, Raised]

/-- A legal Load of a program that fits is a block store, after which no Load is legal (R293, R296). -/
theorem loadOp_fits (hopen : s.loadOpen = true) (hfits : Config.progBase + bytes.length ≤ Config.memSize) :
    loadOp bytes true s = .next { storeBytes s Config.progBase bytes with result := .ok, loadOpen := false } := by
  simp [loadOp, hopen, Nat.not_lt_of_le hfits, retOk]

end

/-- Inside its range a block store in canonical memory is read back byte by byte. -/
theorem memByte_storeBytes_inside {s : State} (hm : MemWf s.params.font s.mem) {a : Nat} {xs : List Byte}
    (hfits : a + xs.length ≤ Config.memSize) {k : Nat} (hk : k < xs.length) :
    memByte (storeBytes s a xs) (a + k) = xs[k] := by
  rw [memByte_storeBytes hm hfits, if_pos ⟨Nat.le_add_right .., Nat.add_lt_add_left hk a⟩, Nat.add_sub_cancel_left,
    List.getD_eq_getElem?_getD, List.getElem?_eq_getElem hk, Option.getD_some]

/-- Settles O25: a Load that is carried out is a block store from 0x200, read by the laws of a block store. -/
theorem loadCopiesVerbatim : Obligations.LoadCopiesVerbatim := by
  intro bytes readable s hopen
  refine ⟨loadOp_raised hopen, fun hreadable hfits => ?_⟩
  subst hreadable
  exact ⟨_, loadOp_fits hopen hfits, rfl, fun hm _ hk => memByte_storeBytes_inside hm hfits hk,
    fun _ hout => memByte_storeBytes_outside s hout⟩

end Sys2Proof.Machine
end

section
/-!
PROOFS about the machine and its interface as a whole: aliases (30_encoding.md), errors that write and keep nothing
(60_exceptions.md), the changed flag (10_state.md), and what every operation of the interface keeps (40_step_cycle.md,
70_reset_and_hazards.md).
-/

namespace Sys2Proof.Machine

/-! ### Aliases (R91) -/

theorem canonical_wellFormed (i : Instr) : i.canonical.wellFormed = true := by cases i <;> rfl

/-- Well-formed instructions are their own canonical form: those with an ignored field by its value, the rest always. -/
theorem wellFormed_iff_canonical_eq (i : Instr) : i.wellFormed = true ↔ i.canonical = i := by
  refine ⟨fun h => ?_, fun h => h ▸ canonical_wellFormed i⟩
  cases i
  case cls | ret | seReg | sneReg => simp_all [Instr.wellFormed, Instr.canonical]
  all_goals rfl

/-- Execute reads no ignored field (R85, R86). -/
theorem exec_canonical (i : Instr) (s : State) : exec i s = exec i.canonical s := by cases i <;> rfl

/-- Settles O5: the three facts about an instruction and its canonical form. -/
theorem aliasesRunAsTheirCanonicalForm : Obligations.AliasesRunAsTheirCanonicalForm := fun i s =>
  ⟨canonical_wellFormed i, wellFormed_iff_canonical_eq i, exec_canonical i s⟩

/-! ### Errors write nothing and are not kept (R258, R260) -/

/-- Settles O13: the state an instruction that raises an error ends in is `Raised`. -/
theorem failingInstructionWritesNothing : Obligations.FailingInstructionWritesNothing := fun _ _ _ _ ht he =>
  eq_raised_of_exec ht he

/-- Both ends of a range check set the result. -/
theorem whenInRange_result {a n : Nat} {s t t' : State} {r : Result} (ht : t' = { t with result := r }) :
    whenInRange a n { s with result := r } t' = whenInRange a n s t := by
  subst ht
  unfold whenInRange
  split <;> rfl

/-- Every instruction sets the result, and none reads the one before. -/
theorem exec_result (i : Instr) (s : State) (r : Result) : exec i { s with result := r } = exec i s := by
  cases i
  case ret x y =>
    by_cases h : s.sp = 0
    · exact (execRet_empty x y (s := { s with result := r }) h).trans (execRet_empty x y h).symm
    · exact (execRet_live x y (s := { s with result := r }) h).trans (execRet_live x y h).symm
  case call a =>
    by_cases h : s.sp = s.params.stackCapacity
    · exact (execCall_full a (s := { s with result := r }) h).trans (execCall_full a h).symm
    · exact (execCall_free a (s := { s with result := r }) h).trans (execCall_free a h).symm
  case ldKey x =>
    cases h : leastKey s with
    | some k => exact (execLdKey_some x { s with result := r } h).trans (execLdKey_some x s h).symm
    | none => exact (execLdKey_none x { s with result := r } h).trans (execLdKey_none x s h).symm
  case drw x y n => exact whenInRange_result (t := drawSprite x y n s) (drawRows_result _ _ _ (setV s vF 0x00) r)
  case load x => exact whenInRange_result (loadRegs_result s _ _ r)
  case ldBcd x => exact whenInRange_result (t := storeBytes s (baseAddr s) (bcdDigits (getV s x))) rfl
  case store x => exact whenInRange_result (t := storeBytes s (baseAddr s) (firstRegs s (x.toNat + 1))) rfl
  all_goals rfl

/-- Decoding and executing a word does not read the result of the operation before. -/
theorem execWord_result (w : Word) (s : State) (r : Result) : execWord w { s with result := r } = execWord w s := by
  cases h : decodeWord w with
  | ok i => rw [execWord_decoded h, execWord_decoded h, exec_result]
  | error e => rw [execWord_undefined h, execWord_undefined h]

/-- Nor do the phases of a step from the fetch on. -/
theorem runPhases_result (s : State) (r : Result) : runPhases { s with result := r } = runPhases s := by
  have hfetch : fetchWord { s with result := r } = fetchWord s := rfl
  unfold runPhases
  rw [hfetch]
  cases fetchWord s with
  | ok w => exact execWord_result w (advancePc s) r
  | error e => rfl

/-- Settles O17: neither the tick nor a later phase reads the result. -/
theorem errorsAreNotKept : Obligations.ErrorsAreNotKept := fun s r =>
  congrArg (mapNext endStep) (runPhases_result (timerTick s) r)

/-! ### The changed flag (R33) -/

section
variable {i : Instr} {s t : State} (h : ExecEffect s i t)
include h

theorem ExecEffect.fbChanged_writer (hne : t.fbChanged ≠ s.fbChanged) :
    (∃ x y, i = .cls x y) ∨ ∃ x y n, i = .drw x y n := by
  cases h with
  | clear x y => exact .inl ⟨x, y, rfl⟩
  | draw x y n => exact .inr ⟨x, y, n, rfl⟩
  | _ => exact absurd rfl hne

/-- No instruction clears the flag: 00E0 sets it, and a draw sets it or leaves it. -/
theorem ExecEffect.fbChanged_of_true (hs : s.fbChanged = true) : t.fbChanged = true := by
  cases h with
  | clear x y => rfl
  | draw x y n => exact (drawn_drawRows ..).changed.2 (.inl hs)
  | _ => exact hs

end

/-- Settles O19: in a step only execute touches the flag, and of its effects the two that can change it set it. -/
theorem changedFlagIsSticky : Obligations.ChangedFlagIsSticky := by
  intro s t ht
  refine ⟨fun hs => ?_, fun hne => ?_⟩
  · obtain ⟨-, h⟩ | ⟨_, _, -, -, h⟩ | ⟨i, u, -, hu, h⟩ := step_cases s <;> cases h.symm.trans ht
    · exact hs
    · exact hs
    · exact (exec_effect hu).fbChanged_of_true hs
  · obtain ⟨i, hi, ⟨x, y, rfl⟩ | ⟨x, y, n, rfl⟩⟩ :=
      exists_writer_of_step_ne (f := State.fbChanged) {} (·.fbChanged_writer) ht hne
    · exact .inl ⟨x, y, hi⟩
    · exact .inr ⟨x, y, n, hi⟩

/-! ### The operations of the interface (R111) -/

/-- A Load is refused when none is legal (R296). -/
theorem loadOp_refused {s : State} (h : s.loadOpen = false) (bytes : List Byte) (readable : Bool) :
    loadOp bytes readable s = .refused .loadNotAfterReset := by
  simp [loadOp, h]

/-- WHAT A LOAD THAT IS NOT REFUSED CAN DO: raise LoadError and write nothing, or store a program that fits, after which
no Load is legal (R293 to R296). -/
theorem loadOp_cases {bytes : List Byte} {readable : Bool} {s t : State} (ht : loadOp bytes readable s = .next t) :
    t = Raised .loadError s ∨ (Config.progBase + bytes.length ≤ Config.memSize ∧
      t = { storeBytes s Config.progBase bytes with result := .ok, loadOpen := false }) := by
  have hopen : s.loadOpen = true := eq_true_of_ne_false fun h => nomatch (loadOp_refused h ..).symm.trans ht
  by_cases hfail : readable = false ∨ Config.progBase + bytes.length > Config.memSize
  · cases (loadOp_raised hopen hfail).symm.trans ht
    exact .inl rfl
  · obtain ⟨hreadable, hfits⟩ := not_or.1 hfail
    cases eq_true_of_ne_false hreadable
    have hfits := Nat.le_of_not_lt hfits
    cases (loadOp_fits hopen hfits).symm.trans ht
    exact .inr ⟨hfits, rfl⟩

/-- Settles O26: a step and a successful Load both close the field `loadOpen`. -/
theorem loadIsLegalOnlyAfterReset : Obligations.LoadIsLegalOnlyAfterReset := by
  intro s t bytes readable hlast
  refine loadOp_refused ?_ bytes readable
  obtain ⟨now, r, ht⟩ | ⟨b, ht, hok⟩ := hlast
  · obtain ⟨-, -, hclosed, -⟩ := stepLeavesKeysAndRedrawsInputs _ _ ht
    exact hclosed
  · obtain rfl | ⟨-, rfl⟩ := loadOp_cases ht
    · cases hok
    · rfl

/-- Settles O60: a Reset builds the engine with its own parameters again, and the other operations do not write
them. -/
theorem everyOperationKeepsTheParameters : Obligations.EveryOperationKeepsTheParameters := by
  intro op s t ht
  cases op with
  | load bytes readable => obtain rfl | ⟨-, rfl⟩ := loadOp_cases ht <;> rfl
  | step now rand8 =>
    obtain ⟨-, hparams, -⟩ := stepLeavesKeysAndRedrawsInputs _ _ ht
    exact hparams
  | reset | writeKeys | readFramebuffer | ackDisplay | tone => cases ht; rfl

/-! ### The invariant (R39) -/

/-- After a Reset memory holds its reset contents, PC is 0x200, and the stack is empty with every entry 0 (R290). -/
theorem inv_resetAt {p : Params} (hp : p.Legal) (now0 draws : Nat) : Inv (State.resetAt p now0 draws) where
  memWf := memWf_resetAt p now0 draws
  pcMax := show (0x0200#16).toNat ≤ 0x10FE by decide
  legal := hp
  spMax := Nat.zero_le _
  stackLen := List.length_replicate
  stackMax w hw := by
    rw [List.eq_of_mem_replicate hw]
    decide

/-- Settles O21: the parameters of this hardware are legal. -/
theorem invariantHoldsAtReset : Obligations.InvariantHoldsAtReset :=
  ⟨inv_resetAt (by decide) 0 0, fun _ now0 draws hp => inv_resetAt hp now0 draws⟩

/-- Settles O23: a Reset with legal parameters establishes the invariant, a Load is refused, raises or stores inside
memory, a step keeps the invariant, and the other operations touch nothing it speaks of. -/
theorem everyOperationKeepsInvariant : Obligations.EveryOperationKeepsInvariant := by
  intro op s t hs ht
  cases op with
  | reset now =>
    cases ht
    exact inv_resetAt hs.legal now s.draws
  | load bytes readable =>
    obtain rfl | ⟨hfits, rfl⟩ := loadOp_cases ht
    · exact hs.withResult _
    · have hstored := hs.store hfits .ok
      exact hstored.of_eq hstored.pcMax rfl rfl rfl rfl
  | step now rand8 =>
    have hinputs : Inv (withInputs now rand8 s) := hs.of_eq hs.pcMax rfl rfl rfl rfl
    exact stepKeepsInvariant _ _ hinputs ht
  | writeKeys | readFramebuffer | ackDisplay | tone =>
    cases ht
    exact hs.of_eq hs.pcMax rfl rfl rfl rfl

end Sys2Proof.Machine
end
